-- ==== Sys2Proof/Config.lean ====
section
/-! DEFINITION. Config: what an implementation fixes (`00_scope.md` rule R7) and the one open behaviour of the machine.

The launch-supplied parameters of rule R7 (the feature flags, the operating-system enables, `MemAdmit`)
are fields of `Sys2Proof.Machine.State`, because rule R171 makes the launch state give them. -/

namespace Sys2Proof.Config

/-- `MAX_VL`: width in bits of a full vector register (rule R7; 512 by decision D3). -/
abbrev maxVL : Nat := 512

/-- `NVEC`: number of vector registers (rules R7 and R20). -/
abbrev nvec : Nat := 32

/-- `NGPR`: number of general registers (rules R7 and R25). -/
abbrev ngpr : Nat := 16

/-- Number of opmask registers (rule R23). -/
abbrev nmask : Nat := 8

/-- `KLEN`: width in bits of an opmask register. DESIGN CHOICE: rule R7 leaves it open (any value from 8
up) and no rule reads a bit above bit 7; 64 is the width rule R23 gives for hardware with AVX512BW.
Log entry 3. -/
abbrev klen : Nat := 64

/-- Size in bytes of the 64-bit linear address space (rule R32). -/
abbrev spaceSize : Nat := 2 ^ 64

/-- Whether an alignment check (alignment checking enabled, CPL 3) faults a misaligned store of `n` bytes
at an address. Rule R42 and decision D7 do not settle it for these widths, so it has no body: a claim
about such a store holds whichever way the processor decides. Log entry 6. -/
opaque alignmentCheckFaults : (addr : BitVec 64) → (n : Nat) → Bool

end Sys2Proof.Config
end

