-- ==== Sys2Proof/Word.lean ====
section
/-! DEFINITION. Word: the bit-vector types of the machine (`10_state.md` rules R20, R23, R25, R26, R32). -/

namespace Sys2Proof

/-- One byte of memory or of an instruction (rule R32). -/
abbrev Byte := BitVec 8

/-- A general register, the instruction pointer, or a linear address (rules R25, R26, R32). -/
abbrev Word := BitVec 64

/-- A full vector register, `MAX_VL` bits (rule R20). -/
abbrev Zmm := BitVec Config.maxVL

/-- An opmask register, `KLEN` bits (rule R23). -/
abbrev KMask := BitVec Config.klen

/-- The number of a vector register: `R' ++ R ++ reg` or `X ++ B ++ rm` (rules R70 and R71). -/
abbrev VReg := BitVec 5

/-- The number of a general register, in the order of rule R25. -/
abbrev GReg := BitVec 4

/-- The number of an opmask register, the EVEX field `aaa` (rule R64). -/
abbrev KReg := BitVec 3

end Sys2Proof
end

