-- ==== Sys2Proof/Machine/State.lean ====
section
/-! DEFINITION. State: the machine's state as plain data (`10_state.md`), the reasons a step stops, and the state after
reset.

The launch-supplied parameters of rules R7 and R34 (feature flags, `MemAdmit`, the place of the program text)
stand here too, because rule R171 makes the launch state give them; no step changes them. -/

namespace Sys2Proof.Machine

/-- The processor modes rules R35, R78, R144 name. `IA32_EFER.LMA` with `CS.L` selects 64-bit mode (rule R30). -/
inductive Mode where
  | realAddress
  | virtual8086
  /-- Protected 16/32-bit and compatibility modes. -/
  | legacy32
  | bits64
  deriving DecidableEq, Repr

/-- The CPUID feature flags of the family, the record `feat` (rules R7 and R29). -/
structure Features where
  avx2 : Bool
  avx512f : Bool
  avx512vl : Bool
  avx512dq : Bool
  deriving DecidableEq, Repr

/-- The kinds of access that `MemAdmit` is asked about (rule R7). -/
inductive AccessKind where
  | write
  | fetch
  deriving DecidableEq, Repr

/-- A range of byte addresses that the launch admits for writing, for fetching, or both (rule R49). -/
structure Region where
  base : Nat
  size : Nat
  writable : Bool
  fetchable : Bool
  deriving DecidableEq, Repr

/-- The place of the program text: the bytes at `base .. base + size - 1` (rules R34 and R176). The bytes
themselves stand in memory. -/
structure ProgramText where
  base : Word
  size : Nat
  deriving DecidableEq, Repr

/-- Memory: a partial map from byte address to byte (rule R32), listed in rising order of address. -/
abbrev Memory := List Host.Cell

/-- The canonical form of memory: addresses strictly rising, each inside the 64-bit address space. An
unlisted address holds no byte, so no entry can repeat what an unlisted address reads as. -/
abbrev Memory.wf (m : Memory) : Prop :=
  m.Pairwise (fun c d => c.1 < d.1) ∧ ∀ c ∈ m, c.1 < Config.spaceSize

/-- The machine's state (rules R20, R23, R25 to R30, R32, R34). -/
structure State where
  /-- `ZMM[0..31]` (rule R20). -/
  zmm : Vector Zmm Config.nvec
  /-- `K[0..7]` (rule R23). -/
  k : Vector KMask Config.nmask
  /-- `x[0..15]`, the general registers (rule R25). -/
  gpr : Vector Word Config.ngpr
  /-- RIP (rule R26). -/
  pc : Word
  /-- RFLAGS; bit 18 is AC (rules R27 and R30). -/
  rflags : BitVec 64
  /-- MXCSR (rule R28). -/
  mxcsr : BitVec 32
  /-- CR0; bit 3 is TS, bit 18 is AM (rule R30). -/
  cr0 : BitVec 64
  /-- CR4; bit 18 is OSXSAVE (rule R30). -/
  cr4 : BitVec 64
  /-- XCR0; bits 1, 2, 5, 6, 7 enable the vector state (rule R30). -/
  xcr0 : BitVec 64
  /-- The current privilege level (rules R30 and R159). -/
  cpl : BitVec 2
  /-- The processor mode (rule R30). -/
  mode : Mode
  /-- The feature flags (rule R29). -/
  feat : Features
  /-- The addresses that `MemAdmit` admits (rules R7 and R49). -/
  regions : List Region
  /-- The place of the program text (rules R34 and R176). -/
  text : ProgramText
  /-- Memory (rule R32). -/
  mem : Memory
  deriving DecidableEq, Repr

/-- The faults of a step (rules R14, R140, R175). Each is terminal and changes no state (rule R155). -/
inductive Fault where
  /-- `#UD`, invalid opcode: raised by decoding (rules R76, R77) and by the form checks (rules R143, R144).
  Safe: the processor raises the same exception. -/
  | ud
  /-- `#NM`, device not available: raised by the form checks when CR0.TS is 1 (rule R145). Safe. -/
  | nm
  /-- `MemFault(ea)`: raised by a store whose footprint is not admitted (rule R147), standing for `#SS(0)`,
  `#GP(0)`, `#PF` or `#AC(0)`. Safe: the model only faults where the launch's `MemAdmit` says so. -/
  | memFault (ea : Word)
  /-- `UnwrittenRead`: raised by the fetch of a program-text byte that memory does not hold (rules R9, R35).
  Safe: it stops where the processor would read some byte. -/
  | unwrittenRead (addr : Nat)
  deriving DecidableEq, Repr

/-- Why a step has no meaning in this model (rules R14 and R175). Each is safe: it claims nothing about the
processor. -/
inductive Refusal where
  /-- Raised by an arm of `exec` whose instruction has no meaning yet. -/
  | notModelled (mnemonic : String)
  /-- Raised by decoding: the bytes at `pc` are not a form of this family and not a reserved encoding that
  the spec assigns `#UD` to (rules R61, R63, R74, R79). -/
  | otherInstruction
  /-- Raised by the fetch: a byte is not admitted for fetching (rule R75). -/
  | fetchNotAdmitted
  /-- Raised by the fetch: `pc` is outside the program text, or the instruction runs past its end (rule R176). -/
  | outsideText
  /-- Raised by a store whose footprint overlaps the program text (rule R55). -/
  | storeIntoText
  /-- Raised by `step` and the form checks in a mode whose encodings rules R6 and R78 leave out. -/
  | modeOutOfScope
  /-- Raised by `step` when `pc` is one past the program text: the run has ended normally (rule R176). -/
  | programEnded
  deriving DecidableEq, Repr

/-- The outcome of a step (rule R14). -/
abbrev Result := Host.Outcome State Fault Refusal

/-- Every feature flag set (decision D2). -/
def Features.all : Features := ⟨true, true, true, true⟩

/-- DESIGN CHOICE (log entry 5): at reset `MemAdmit` admits the addresses that are canonical with a 48-bit
linear address, for writing and for fetching. -/
def canonicalRegions : List Region :=
  [⟨0, 2 ^ 47, true, true⟩, ⟨2 ^ 64 - 2 ^ 47, 2 ^ 47, true, true⟩]

/-- The state after reset: the launch state of rule R171 with the premises of decisions D1, D2, D7 and D12
(64-bit mode, every feature flag set, `os.avx = os.avx512 = true`, `os.ts = false`, alignment checking off),
each register at the value of rule R35's table. No program is loaded: the text is empty and memory lists
nothing. Log entries 1 and 2 name each value the spec does not give. -/
def State.reset : State where
  zmm := Vector.replicate Config.nvec 0
  k := Vector.replicate Config.nmask 0
  gpr := Vector.replicate Config.ngpr 0
  pc := 0xFFF0
  rflags := 0x2
  mxcsr := 0x1F80
  cr0 := 0xE0000011
  cr4 := 0x40020
  xcr0 := 0xE7
  cpl := 0
  mode := .bits64
  feat := .all
  regions := canonicalRegions
  text := ⟨0xFFF0, 0⟩
  mem := []

/-- The hardware straight after power-up or RESET, by rule R35's second column: real-address mode, CR0.TS and
CR4 zero, XCR0 = 1, and a processor signature in RDX (`x[2]`). The model does not run from it (decision D15);
log entry 1. -/
def State.powerUp (signature : Word) : State :=
  { State.reset with
    gpr := (Vector.replicate Config.ngpr 0).set 2 signature
    cr0 := 0x60000010
    cr4 := 0
    xcr0 := 1
    mode := .realAddress }

end Sys2Proof.Machine
end

