-- ==== Sys2Proof/Syntax.lean ====
section
/-! DEFINITION. Syntax: the decoded instruction (`30_encoding.md` rule R82), one constructor of `Instr` per row of
`spec/opcode_table.json`.

A memory destination is kept as its addressing form, not as a computed address: rule R82's `ea` is computed
from it by `Sys2Proof.Machine.effectiveAddress` (rule R72) when the instruction runs. -/

namespace Sys2Proof

/-- The displacement that follows ModRM or SIB (rule R67): none, one byte, or four bytes. -/
inductive Disp where
  | none
  | disp8 (d : BitVec 8)
  | disp32 (d : BitVec 32)
  deriving DecidableEq, Repr

/-- The addressing form of a memory destination (rules R60, R65, R66, R72). -/
inductive MemOperand where
  /-- `mod = 00`, `rm = 101`: relative to the address of the next instruction. -/
  | ripRel (disp : BitVec 32)
  /-- No SIB byte: the base register is `B ++ rm`. -/
  | base (b : GReg) (disp : Disp)
  /-- With SIB byte and a base register `B ++ base`. `index = 0100` is no index. -/
  | sib (b : GReg) (index : GReg) (scale : BitVec 2) (disp : Disp)
  /-- `mod = 00` with `SIB.base = 101`: no base register, four displacement bytes. -/
  | sibNoBase (index : GReg) (scale : BitVec 2) (disp : BitVec 32)
  deriving DecidableEq, Repr

/-- Operand 1, the destination, encoded in ModRM:r/m (rules R65 and R69). -/
inductive Operand where
  | reg (d : VReg)
  | mem (m : MemOperand)
  deriving DecidableEq, Repr

/-- The writemask fields of the EVEX prefix (rule R64): `aaa = 000` is no writemask; `z` set is
zeroing-masking, clear is merging-masking. -/
structure Writemask where
  aaa : KReg
  z : Bool
  deriving DecidableEq, Repr

/-- The seven encoding forms F1 to F7 (rule R2). -/
inductive Form where
  | f1 | f2 | f3 | f4 | f5 | f6 | f7
  deriving DecidableEq, Repr

/-- The instructions, one constructor per row of `spec/opcode_table.json`: destination, source register,
immediate, and for the EVEX-encoded forms the writemask. -/
inductive Instr where
  /-- F1, rule R120. -/
  | vextracti128 (dst : Operand) (src : VReg) (imm : Byte)
  /-- F2, rule R121: 256-bit source. -/
  | vextracti32x4V256 (dst : Operand) (src : VReg) (imm : Byte) (wm : Writemask)
  /-- F3, rule R122: 512-bit source. -/
  | vextracti32x4V512 (dst : Operand) (src : VReg) (imm : Byte) (wm : Writemask)
  /-- F4, rule R123: 256-bit source. -/
  | vextracti64x2V256 (dst : Operand) (src : VReg) (imm : Byte) (wm : Writemask)
  /-- F5, rule R124: 512-bit source. -/
  | vextracti64x2V512 (dst : Operand) (src : VReg) (imm : Byte) (wm : Writemask)
  /-- F6, rule R125. -/
  | vextracti32x8 (dst : Operand) (src : VReg) (imm : Byte) (wm : Writemask)
  /-- F7, rule R126. -/
  | vextracti64x4 (dst : Operand) (src : VReg) (imm : Byte) (wm : Writemask)
  deriving DecidableEq, Repr

/-- The encoding form of an instruction (rule R2). -/
def Instr.form : Instr → Form
  | .vextracti128 .. => .f1
  | .vextracti32x4V256 .. => .f2
  | .vextracti32x4V512 .. => .f3
  | .vextracti64x2V256 .. => .f4
  | .vextracti64x2V512 .. => .f5
  | .vextracti32x8 .. => .f6
  | .vextracti64x4 .. => .f7

/-- Operand 1, the destination (rule R69). -/
def Instr.dst : Instr → Operand
  | .vextracti128 d _ _ => d
  | .vextracti32x4V256 d _ _ _ => d
  | .vextracti32x4V512 d _ _ _ => d
  | .vextracti64x2V256 d _ _ _ => d
  | .vextracti64x2V512 d _ _ _ => d
  | .vextracti32x8 d _ _ _ => d
  | .vextracti64x4 d _ _ _ => d

/-- Operand 2, the source register (rule R69). -/
def Instr.src : Instr → VReg
  | .vextracti128 _ r _ => r
  | .vextracti32x4V256 _ r _ _ => r
  | .vextracti32x4V512 _ r _ _ => r
  | .vextracti64x2V256 _ r _ _ => r
  | .vextracti64x2V512 _ r _ _ => r
  | .vextracti32x8 _ r _ _ => r
  | .vextracti64x4 _ r _ _ => r

/-- Operand 3, the immediate (rules R68 and R69). -/
def Instr.imm : Instr → Byte
  | .vextracti128 _ _ i => i
  | .vextracti32x4V256 _ _ i _ => i
  | .vextracti32x4V512 _ _ i _ => i
  | .vextracti64x2V256 _ _ i _ => i
  | .vextracti64x2V512 _ _ i _ => i
  | .vextracti32x8 _ _ i _ => i
  | .vextracti64x4 _ _ i _ => i

/-- The writemask fields; rule R82 gives form F1 `aaa = 0` and `z = 0`. -/
def Instr.writemask : Instr → Writemask
  | .vextracti128 _ _ _ => ⟨0, false⟩
  | .vextracti32x4V256 _ _ _ w => w
  | .vextracti32x4V512 _ _ _ w => w
  | .vextracti64x2V256 _ _ _ w => w
  | .vextracti64x2V512 _ _ _ w => w
  | .vextracti32x8 _ _ _ w => w
  | .vextracti64x4 _ _ _ w => w

/-- The instruction of a form with given operands; form F1 has no writemask, so it drops `w`. -/
def Instr.ofForm (f : Form) (dst : Operand) (src : VReg) (imm : Byte) (w : Writemask) : Instr :=
  match f with
  | .f1 => .vextracti128 dst src imm
  | .f2 => .vextracti32x4V256 dst src imm w
  | .f3 => .vextracti32x4V512 dst src imm w
  | .f4 => .vextracti64x2V256 dst src imm w
  | .f5 => .vextracti64x2V512 dst src imm w
  | .f6 => .vextracti32x8 dst src imm w
  | .f7 => .vextracti64x4 dst src imm w

end Sys2Proof
end

