-- ==== Sys2Proof/Machine/Flags.lean ====
section
/-! DEFINITION. Flags: the status and control bits the exception classes read (`10_state.md` rules R29 and R30) and the
conditions made of them. No form reads or writes a status flag or MXCSR (rules R27, R28), so there is no flag
computation here. -/

namespace Sys2Proof.Machine

/-- CR0.TS, bit 3 (rule R30): `os.ts`. -/
def State.osTs (s : State) : Bool := s.cr0.getLsbD 3

/-- CR0.AM, bit 18 (rule R30). -/
def State.cr0AM (s : State) : Bool := s.cr0.getLsbD 18

/-- CR4.OSXSAVE, bit 18 (rule R30). -/
def State.cr4OSXSAVE (s : State) : Bool := s.cr4.getLsbD 18

/-- RFLAGS.AC, bit 18 (rule R30). -/
def State.rflagsAC (s : State) : Bool := s.rflags.getLsbD 18

/-- `os.avx`: XCR0[2:1] = 11b and CR4.OSXSAVE = 1 (rule R30). -/
def State.osAvx (s : State) : Bool := s.xcr0.extractLsb' 1 2 == 0b11 && s.cr4OSXSAVE

/-- `os.avx512`: `os.avx` and XCR0[7:5] = 111b (rule R30). -/
def State.osAvx512 (s : State) : Bool := s.osAvx && s.xcr0.extractLsb' 5 3 == 0b111

/-- `ac_enabled`: CR0.AM = 1, RFLAGS.AC = 1 and CPL = 3 (rules R7 and R30). -/
def State.acEnabled (s : State) : Bool := s.cr0AM && s.rflagsAC && s.cpl == 3

/-- The CPUID feature flags a form needs (rule R143). -/
def Features.allow (c : Features) : Form → Bool
  | .f1 => c.avx2
  | .f2 => c.avx512vl && c.avx512f
  | .f3 => c.avx512f
  | .f4 => c.avx512vl && c.avx512dq
  | .f5 => c.avx512dq
  | .f6 => c.avx512dq
  | .f7 => c.avx512f

/-- The operating-system enable a form needs (rule R144): `os.avx` for F1, `os.avx512` for F2 to F7. -/
def State.osAllows (s : State) : Form → Bool
  | .f1 => s.osAvx
  | _ => s.osAvx512

/-- `feature_ok(form)`: the conjunction of rules R143 and R144 (rule R143). -/
def State.featureOk (s : State) (f : Form) : Bool := s.feat.allow f && s.osAllows f

/-- The feature record that CPUID leaf 7, sub-leaf 0 enumerates in EBX: bit 5 AVX2, bit 16 AVX512F, bit 17
AVX512DQ, bit 31 AVX512VL (rule R29). -/
def Features.ofCpuid (ebx : BitVec 32) : Features :=
  ⟨ebx.getLsbD 5, ebx.getLsbD 16, ebx.getLsbD 31, ebx.getLsbD 17⟩

end Sys2Proof.Machine
end

