-- ==== Sys2Proof/WellFormed.lean ====
section
/-! DEFINITION. WellFormed: which instructions the encoding of `30_encoding.md` can name. -/

namespace Sys2Proof

/-- ModRM.rm or SIB.base: the low three bits of a general register number. -/
def GReg.low (b : GReg) : BitVec 3 := b.extractLsb' 0 3

/-- An addressing form the ModRM and SIB bytes can name (rules R60, R66): without SIB the base's low bits
are not `100` (that announces SIB), and with no displacement the base's low bits are not `101` (that names
the RIP-relative or the no-base form). -/
def MemOperand.wf : MemOperand → Bool
  | .ripRel _ => true
  | .base b .none => b.low != 4 && b.low != 5
  | .base b _ => b.low != 4
  | .sib b _ _ .none => b.low != 5
  | .sib _ _ _ _ => true
  | .sibNoBase _ _ _ => true

/-- A destination a form can name: form F1 reaches vector registers 0 to 15 only (rule R22). -/
def Operand.wf (f : Form) : Operand → Bool
  | .reg d => f != .f1 || decide (d.toNat < 16)
  | .mem m => m.wf

/-- A source a form can name (rule R22). -/
def VReg.wfSrc (f : Form) (r : VReg) : Bool := f != .f1 || decide (r.toNat < 16)

/-- A writemask the EVEX prefix may carry: zeroing-masking needs a writemask (rule R77 g) and a register
destination (rule R77 h). -/
def Writemask.wf (w : Writemask) (dst : Operand) : Bool :=
  !w.z || (w.aaa != 0 && (match dst with | .reg _ => true | .mem _ => false))

/-- An instruction that some byte string encodes. -/
def Instr.wf (i : Instr) : Bool :=
  i.dst.wf i.form && i.src.wfSrc i.form && i.writemask.wf i.dst

end Sys2Proof
end

