-- ==== Sys2Proof/Decode.lean ====
section
/-! DEFINITION. Decode: the decoder of `30_encoding.md` (rules R60 to R84), total on any bytes, and the encoder written
from the same tables.

Field names are the spec's: R, X, B, R', W, vvvv, L, pp, mm, z, L'L, b, V', aaa, mod, reg, rm. A stored
inverted field is complemented where it is read (rules R62 and R64). -/

namespace Sys2Proof

/-! ### Bit fields and byte order -/

/-- Bit `i` of a byte as a one-bit field. -/
def Byte.bit (b : Byte) (i : Nat) : BitVec 1 := b.extractLsb' i 1

/-- A four-byte little-endian field (rule R40). -/
def le32 (b0 b1 b2 b3 : Byte) : BitVec 32 := b3 ++ b2 ++ b1 ++ b0

/-- The four bytes of a little-endian field, lowest address first (rule R40). -/
def bytes32 (d : BitVec 32) : List Byte :=
  [d.extractLsb' 0 8, d.extractLsb' 8 8, d.extractLsb' 16 8, d.extractLsb' 24 8]

/-- The first `n` bytes of a number, least significant first: the numbering of `spec/opcode_table.json`. -/
def natBytes : (n : Nat) → (w : Nat) → List Byte
  | 0, _ => []
  | n + 1, w => BitVec.ofNat 8 w :: natBytes n (w / 256)

/-! ### What a form fixes in the encoding -/

/-- Length of the prefix in bytes: VEX 3, EVEX 4 (rule R60). -/
def Form.prefixLength : Form → Nat
  | .f1 => 3
  | _ => 4

/-- The factor of an 8-bit displacement (rule R67): 1 for VEX; `N` of the tuple type for EVEX. -/
def Form.dispScale : Form → Nat
  | .f1 => 1
  | .f2 | .f3 | .f4 | .f5 => 16
  | .f6 | .f7 => 32

/-- Bytes of a displacement (rule R67). -/
def Disp.length : Disp → Nat
  | .none => 0
  | .disp8 _ => 1
  | .disp32 _ => 4

/-- Bytes between ModRM and the immediate: SIB and displacement (rule R60). -/
def Operand.tailLength : Operand → Nat
  | .reg _ => 0
  | .mem (.ripRel _) => 4
  | .mem (.base _ d) => d.length
  | .mem (.sib _ _ _ d) => 1 + d.length
  | .mem (.sibNoBase _ _ _) => 5

/-- Length of an instruction: prefix, opcode, ModRM, SIB and displacement, immediate (rule R60). -/
def encodedLength (f : Form) (dst : Operand) : Nat := f.prefixLength + 2 + dst.tailLength + 1

/-- Length of an instruction in bytes (rule R60). -/
def Instr.length (i : Instr) : Nat := encodedLength i.form i.dst

/-- The longest instruction of the family: 12 bytes (rule R60). -/
def maxLength : Nat := 12

/-! ### The opcode map -/

/-- A row of `spec/opcode_table.json`: a byte string matches when each leading byte, masked, equals the
row's match byte (rule R73). -/
structure OpcodeRow where
  form : Form
  pattern : List Byte
  mask : List Byte
  deriving DecidableEq, Repr

/-- The seven rows, hexadecimal in address order (rule R73). -/
def opcodeTable : List OpcodeRow := [
  ⟨.f1, [0xC4, 0x03, 0x7D, 0x39], [0xFF, 0x1F, 0xFF, 0xFF]⟩,
  ⟨.f2, [0x62, 0x03, 0x7D, 0x28, 0x39], [0xFF, 0x0F, 0xFF, 0x78, 0xFF]⟩,
  ⟨.f3, [0x62, 0x03, 0x7D, 0x48, 0x39], [0xFF, 0x0F, 0xFF, 0x78, 0xFF]⟩,
  ⟨.f4, [0x62, 0x03, 0xFD, 0x28, 0x39], [0xFF, 0x0F, 0xFF, 0x78, 0xFF]⟩,
  ⟨.f5, [0x62, 0x03, 0xFD, 0x48, 0x39], [0xFF, 0x0F, 0xFF, 0x78, 0xFF]⟩,
  ⟨.f6, [0x62, 0x03, 0x7D, 0x48, 0x3B], [0xFF, 0x0F, 0xFF, 0x78, 0xFF]⟩,
  ⟨.f7, [0x62, 0x03, 0xFD, 0x48, 0x3B], [0xFF, 0x0F, 0xFF, 0x78, 0xFF]⟩]

/-- Each masked leading byte equals the pattern's byte. -/
def matchesPattern : (pattern mask bytes : List Byte) → Bool
  | [], _, _ => true
  | p :: ps, m :: ms, b :: bs => (b &&& m) == p && matchesPattern ps ms bs
  | _ :: _, _, _ => false

/-- A byte string matches a row (rule R73). -/
def OpcodeRow.matches (r : OpcodeRow) (bytes : List Byte) : Bool := matchesPattern r.pattern r.mask bytes

/-! ### The decoder -/

/-- Why bytes have no meaning in this spec (rule R82). -/
inductive DecodeRefusal where
  /-- The bytes end before the instruction does (rules R75 and R176). -/
  | truncated
  /-- Not an instruction of this family (rules R61, R63, R74, R79): any other first byte, or another map,
  `pp` or opcode after C4H or 62H. -/
  | otherInstruction
  deriving DecidableEq, Repr

/-- The result of decoding (rule R82): an instruction with the bytes that follow it, `#UD`, or refused. -/
inductive Decoded where
  | insn (i : Instr) (rest : List Byte)
  | ud
  | refused (why : DecodeRefusal)
  deriving DecidableEq, Repr

/-- A displacement of four bytes (rule R67). -/
def takeDisp32 : List Byte → Option (BitVec 32 × List Byte)
  | b0 :: b1 :: b2 :: b3 :: rest => some (le32 b0 b1 b2 b3, rest)
  | _ => none

/-- The displacement that `mod` announces: one byte for 01, four for 10, none for 00 (rule R67). -/
def takeDisp (mod : BitVec 2) (bytes : List Byte) : Option (Disp × List Byte) :=
  if mod = 1 then
    match bytes with
    | d :: rest => some (.disp8 d, rest)
    | [] => none
  else if mod = 2 then (takeDisp32 bytes).map fun (d, rest) => (.disp32 d, rest)
  else some (.none, bytes)

/-- The addressing form with a SIB byte (rule R66). -/
def takeSib (mod : BitVec 2) (x b : BitVec 1) : List Byte → Option (MemOperand × List Byte)
  | [] => none
  | sib :: bytes =>
    let scale := sib.extractLsb' 6 2
    let index : GReg := x ++ sib.extractLsb' 3 3
    let base := sib.extractLsb' 0 3
    if base = 5 ∧ mod = 0 then (takeDisp32 bytes).map fun (d, rest) => (.sibNoBase index scale d, rest)
    else (takeDisp mod bytes).map fun (d, rest) => (.sib (b ++ base) index scale d, rest)

/-- The addressing form of a memory destination, for `mod ≠ 11` (rules R60, R66, R72). -/
def takeMem (mod : BitVec 2) (rm : BitVec 3) (x b : BitVec 1) (bytes : List Byte) :
    Option (MemOperand × List Byte) :=
  if rm = 4 then takeSib mod x b bytes
  else if rm = 5 ∧ mod = 0 then (takeDisp32 bytes).map fun (d, rest) => (.ripRel d, rest)
  else (takeDisp mod bytes).map fun (d, rest) => (.base (b ++ rm) d, rest)

/-- The destination: a register for `mod = 11`, else memory (rule R65). `x4` is bit 4 of a register
destination: 0 in form F1 (rule R70), the field X in the EVEX forms (rule R71). -/
def takeOperand (mod : BitVec 2) (rm : BitVec 3) (x4 x b : BitVec 1) (bytes : List Byte) :
    Option (Operand × List Byte) :=
  if mod = 3 then some (.reg (x4 ++ b ++ rm), bytes)
  else (takeMem mod rm x b bytes).map fun (m, rest) => (.mem m, rest)

/-- What follows the opcode byte: ModRM, SIB, displacement and immediate (rule R60). -/
structure Tail where
  reg : BitVec 3
  dst : Operand
  imm : Byte
  rest : List Byte
  deriving DecidableEq, Repr

/-- Reads ModRM, the destination and the immediate, in the order of rule R75. -/
def takeTail (x4 x b : BitVec 1) : List Byte → Option Tail
  | [] => none
  | modrm :: bytes =>
    match takeOperand (modrm.extractLsb' 6 2) (modrm.extractLsb' 0 3) x4 x b bytes with
    | some (dst, imm :: rest) => some ⟨modrm.extractLsb' 3 3, dst, imm, rest⟩
    | _ => none

/-- The bytes after C4H (rules R62, R70, R76, R77 a, R83). -/
def decodeVex : List Byte → Decoded
  | b1 :: b2 :: opcode :: bytes =>
    if b1.extractLsb' 0 5 = 0b00011 ∧ b2.extractLsb' 0 2 = 0b01 ∧ opcode = 0x39 then
      match takeTail 0 (~~~b1.bit 6) (~~~b1.bit 5) bytes with
      | none => .refused .truncated
      | some t =>
        if b2.bit 2 = 0 ∨ b2.bit 7 = 1 ∨ b2.extractLsb' 3 4 ≠ 0b1111 then .ud
        else .insn (.vextracti128 t.dst (0#1 ++ ~~~b1.bit 7 ++ t.reg) t.imm) t.rest
    else .refused .otherInstruction
  | _ => .refused .truncated

/-- The EVEX form that the opcode byte, W and L'L select; the other combinations are reserved
(rules R74 and R77 d). -/
def evexForm (opcode : Byte) (w : BitVec 1) (ll : BitVec 2) : Option Form :=
  if opcode = 0x39 then
    if ll = 0b01 then some (if w = 0 then .f2 else .f4)
    else if ll = 0b10 then some (if w = 0 then .f3 else .f5)
    else none
  else if ll = 0b10 then some (if w = 0 then .f6 else .f7)
  else none

/-- The reserved settings of the EVEX payload bytes (rules R76 a and R77 b, c, e, f). -/
def evexReserved (p0 p1 p2 : Byte) : Bool :=
  p0.extractLsb' 2 2 != 0 || p1.bit 2 == 0 || p1.extractLsb' 3 4 != 0b1111 || p2.bit 4 == 1 || p2.bit 3 == 0

/-- The bytes after 62H (rules R64, R71, R74, R76, R77, R83). -/
def decodeEvex : List Byte → Decoded
  | p0 :: p1 :: p2 :: opcode :: bytes =>
    if p0.extractLsb' 0 2 = 0b11 ∧ p1.extractLsb' 0 2 = 0b01 ∧ (opcode = 0x39 ∨ opcode = 0x3B) then
      match takeTail (~~~p0.bit 6) (~~~p0.bit 6) (~~~p0.bit 5) bytes with
      | none => .refused .truncated
      | some t =>
        match evexForm opcode (p1.bit 7) (p2.extractLsb' 5 2) with
        | none => .ud
        | some f =>
          let w : Writemask := ⟨p2.extractLsb' 0 3, p2.bit 7 == 1⟩
          if evexReserved p0 p1 p2 || !w.wf t.dst then .ud
          else .insn (.ofForm f t.dst (~~~p0.bit 4 ++ ~~~p0.bit 7 ++ t.reg) t.imm w) t.rest
    else .refused .otherInstruction
  | _ => .refused .truncated

/-- The decoder of 64-bit mode, total on any bytes (rules R82 and R83). The bytes are the ones at `pc`,
`pc + 1`, …; the whole instruction is read (rule R75) before a reserved setting is reported. -/
def decode : List Byte → Decoded
  | [] => .refused .truncated
  | b0 :: bytes =>
    if b0 = 0xC4 then decodeVex bytes
    else if b0 = 0x62 then decodeEvex bytes
    else .refused .otherInstruction

/-- The instruction that the decoder reads from a word numbered as `spec/opcode_table.json` numbers it:
byte `q` of the instruction is bits `8q+7:8q`; every bit from `nbits` up is 0. -/
def decodeTableWord (nbits w : Nat) : Option Instr :=
  match decode (natBytes maxLength (w % 2 ^ nbits)) with
  | .insn i _ => some i
  | _ => none

/-! ### The encoder -/

/-- The fields a destination puts into ModRM, X and B, and the bytes after ModRM. A field with no meaning
for the destination holds 0, so its stored bit is 1. -/
structure RmFields where
  mod : BitVec 2
  rm : BitVec 3
  x : BitVec 1
  b : BitVec 1
  tail : List Byte
  deriving DecidableEq, Repr

/-- `mod` for a displacement (rule R67). -/
def Disp.mod : Disp → BitVec 2
  | .none => 0
  | .disp8 _ => 1
  | .disp32 _ => 2

/-- The displacement bytes (rules R40 and R67). -/
def Disp.bytes : Disp → List Byte
  | .none => []
  | .disp8 d => [d]
  | .disp32 d => bytes32 d

/-- The SIB byte: scale, index, base (rule R66). -/
def sibByte (scale : BitVec 2) (index base : BitVec 3) : Byte := scale ++ index ++ base

/-- How ModRM, SIB and displacement name a destination (rules R60, R66, R70, R71). -/
def Operand.rmFields : Operand → RmFields
  | .reg d => ⟨3, d.extractLsb' 0 3, d.extractLsb' 4 1, d.extractLsb' 3 1, []⟩
  | .mem (.ripRel d) => ⟨0, 5, 0, 0, bytes32 d⟩
  | .mem (.base b d) => ⟨d.mod, b.low, 0, b.extractLsb' 3 1, d.bytes⟩
  | .mem (.sib b i sc d) => ⟨d.mod, 4, i.extractLsb' 3 1, b.extractLsb' 3 1, sibByte sc i.low b.low :: d.bytes⟩
  | .mem (.sibNoBase i sc d) => ⟨0, 4, i.extractLsb' 3 1, 0, sibByte sc i.low 5 :: bytes32 d⟩

/-- The ModRM byte (rule R65). -/
def modrmByte (mod : BitVec 2) (reg rm : BitVec 3) : Byte := mod ++ reg ++ rm

/-- ModRM, SIB, displacement and immediate (rule R60). -/
def encodeTail (r : RmFields) (src : VReg) (imm : Byte) : List Byte :=
  modrmByte r.mod (src.extractLsb' 0 3) r.rm :: (r.tail ++ [imm])

/-- Form F1: C4H, the two VEX payload bytes, opcode 39H (rules R62, R70, R73). -/
def encodeVex (dst : Operand) (src : VReg) (imm : Byte) : List Byte :=
  let r := dst.rmFields
  0xC4 :: (~~~(src.extractLsb' 3 1) ++ ~~~r.x ++ ~~~r.b ++ 0b00011#5) :: 0x7D :: 0x39 :: encodeTail r src imm

/-- An EVEX form: 62H, P0, P1, P2 and the opcode byte (rules R64, R71, R73). -/
def encodeEvex (w : BitVec 1) (ll : BitVec 2) (opcode : Byte) (dst : Operand) (src : VReg) (imm : Byte)
    (wm : Writemask) : List Byte :=
  let r := dst.rmFields
  0x62 :: (~~~(src.extractLsb' 3 1) ++ ~~~r.x ++ ~~~r.b ++ ~~~(src.extractLsb' 4 1) ++ 0b0011#4)
    :: (w ++ 0b1111101#7) :: (BitVec.ofBool wm.z ++ ll ++ 0b01#2 ++ wm.aaa) :: opcode :: encodeTail r src imm

/-- The bytes of an instruction (rule R73). -/
def encode : Instr → List Byte
  | .vextracti128 dst src imm => encodeVex dst src imm
  | .vextracti32x4V256 dst src imm wm => encodeEvex 0 0b01 0x39 dst src imm wm
  | .vextracti32x4V512 dst src imm wm => encodeEvex 0 0b10 0x39 dst src imm wm
  | .vextracti64x2V256 dst src imm wm => encodeEvex 1 0b01 0x39 dst src imm wm
  | .vextracti64x2V512 dst src imm wm => encodeEvex 1 0b10 0x39 dst src imm wm
  | .vextracti32x8 dst src imm wm => encodeEvex 0 0b10 0x3B dst src imm wm
  | .vextracti64x4 dst src imm wm => encodeEvex 1 0b10 0x3B dst src imm wm

end Sys2Proof
end

