-- ==== Sys2Proof/Machine/Operands.lean ====
section
/-! DEFINITION. Operands: the registers, their xmm, ymm and zmm views, the block that the immediate selects, and the
effective address of a memory destination. -/

namespace Sys2Proof.Machine

/-! ### Registers -/

/-- `ZMM[r]` (rule R9). -/
def State.getZmm (s : State) (r : VReg) : Zmm := s.zmm[r.toNat]'r.isLt

/-- `ZMM[r] <- v` (rule R9). -/
def State.setZmm (s : State) (r : VReg) (v : Zmm) : State := { s with zmm := s.zmm.set r.toNat v r.isLt }

/-- `YMM[r] = ZMM[r][255:0]` (rule R21). -/
def State.getYmm (s : State) (r : VReg) : BitVec 256 := (s.getZmm r).extractLsb' 0 256

/-- `XMM[r] = ZMM[r][127:0]` (rule R21). -/
def State.getXmm (s : State) (r : VReg) : BitVec 128 := (s.getZmm r).extractLsb' 0 128

/-- `K[r]` (rule R9). -/
def State.getK (s : State) (r : KReg) : KMask := s.k[r.toNat]'r.isLt

/-- `x[r]` (rule R9). -/
def State.getGpr (s : State) (r : GReg) : Word := s.gpr[r.toNat]'r.isLt

/-- `pc <- a` (rule R9). -/
def State.setPc (s : State) (a : Word) : State := { s with pc := a }

/-! ### What a form fixes (rule R100) -/

/-- `VL`: the width of the source in bits. -/
def vectorLength : Form → Nat
  | .f1 | .f2 | .f4 => 256
  | .f3 | .f5 | .f6 | .f7 => 512

/-- `W`: the width of the extracted block in bits. -/
def extractWidth : Form → Nat
  | .f1 | .f2 | .f3 | .f4 | .f5 => 128
  | .f6 | .f7 => 256

/-- `E`: the width of a writemask element in bits; form F1 has no writemask and its block counts as one
element. -/
def elementWidth : Form → Nat
  | .f1 => 128
  | .f2 | .f3 | .f6 => 32
  | .f4 | .f5 | .f7 => 64

/-- `W/E`: the number of elements. -/
def elementCount (f : Form) : Nat := extractWidth f / elementWidth f

/-! ### Selection (rules R101, R102, R107) -/

/-- `Sel128(src, VL, imm8)`: of the source's low `vl` bits, the 128-bit block `imm8[0]` for `VL = 256` and
`imm8[1:0]` for `VL = 512` (rule R101). -/
def sel128 (vl : Nat) (src : Zmm) (imm : Byte) : BitVec 128 :=
  let n := if vl = 512 then (imm.extractLsb' 0 2).toNat else (imm.extractLsb' 0 1).toNat
  (src.extractLsb' 0 vl).extractLsb' (128 * n) 128

/-- `Sel256(src, imm8)`: half `imm8[0]` of the 512-bit source (rule R102). -/
def sel256 (src : Zmm) (imm : Byte) : BitVec 256 :=
  src.extractLsb' (256 * (imm.extractLsb' 0 1).toNat) 256

/-! ### Effective address (rules R67 and R72) -/

/-- The displacement that enters the address: `sext_64(disp32)`, or `sext_64(disp8)` times the form's scale,
or 0 (rule R67). -/
def dispValue (scale : Nat) : Disp → Word
  | .none => 0
  | .disp8 d => d.signExtend 64 * BitVec.ofNat 64 scale
  | .disp32 d => d.signExtend 64

/-- `indexv`: 0 for index 0100, else `x[index] * 2^scale` (rule R72). -/
def indexValue (s : State) (index : GReg) (scale : BitVec 2) : Word :=
  if index = 0b0100 then 0 else s.getGpr index <<< scale.toNat

/-- `ea` in 64-bit mode, modulo 2^64 (rules R50 and R72). `next` is the address of the next instruction and
`scale` the form's 8-bit displacement factor. -/
def effectiveAddress (s : State) (scale : Nat) (next : Word) : MemOperand → Word
  | .ripRel d => next + d.signExtend 64
  | .base b d => s.getGpr b + dispValue scale d
  | .sib b i sc d => s.getGpr b + indexValue s i sc + dispValue scale d
  | .sibNoBase i sc d => indexValue s i sc + d.signExtend 64

/-- The address of the instruction after one of form `f` with destination `dst` at `pc` (rules R72, R111). -/
def nextPc (s : State) (f : Form) (dst : Operand) : Word := s.pc + BitVec.ofNat 64 (encodedLength f dst)

/-- The address a memory destination of form `f` names at state `s` (rules R67, R72). -/
def storeAddress (s : State) (f : Form) (m : MemOperand) : Word :=
  effectiveAddress s f.dispScale (nextPc s f (.mem m)) m

end Sys2Proof.Machine
end

