-- ==== Sys2Proof/Machine/Ops.lean ====
section
/-! DEFINITION. Ops: the shared operations: memory, admission, the writemask, the two destination writes, taking an
exception, and the checks before an instruction runs. -/

namespace Sys2Proof.Machine

/-! ### Memory (rules R10, R32, R40) -/

/-- The byte at an address, `none` where memory holds no byte (rules R10 and R32). -/
def Memory.read : Memory → Nat → Option Byte
  | [], _ => none
  | (a, b) :: m, x => if a = x then some b else Memory.read m x

/-- Memory with one byte written; the canonical form is kept. -/
def Memory.write : Memory → Nat → Byte → Memory
  | [], x, v => [(x, v)]
  | (a, b) :: m, x, v =>
    if x < a then (x, v) :: (a, b) :: m
    else if x = a then (x, v) :: m
    else (a, b) :: Memory.write m x v

/-- Memory with consecutive bytes written from an address up. -/
def Memory.writeBytes : Memory → Nat → List Byte → Memory
  | m, _, [] => m
  | m, a, b :: bs => Memory.writeBytes (Memory.write m a b) (a + 1) bs

/-- The `n` bytes of a value, least significant first: byte `q` is `v[8q+7:8q]` (rules R10 and R40). -/
def littleEndian {w : Nat} (n : Nat) (v : BitVec w) : List Byte :=
  (List.range n).map fun q => v.extractLsb' (8 * q) 8

/-- `MemWrite(addr, n, v)`: little-endian (rule R10). -/
def Memory.writeLE {w : Nat} (m : Memory) (addr n : Nat) (v : BitVec w) : Memory :=
  Memory.writeBytes m addr (littleEndian n v)

/-! ### Admission (rules R7, R45, R48, R49) -/

/-- A region admits one byte address for an access. -/
def Region.admits (r : Region) (kind : AccessKind) (a : Nat) : Bool :=
  decide (r.base ≤ a) && decide (a < r.base + r.size) &&
    (match kind with | .write => r.writable | .fetch => r.fetchable)

/-- `MemAdmit(addr, n, kind)`: the footprint does not run past `2^64 - 1` (rule R48) and the launch admits
each of its bytes (rule R49). -/
def State.memAdmit (s : State) (addr n : Nat) (kind : AccessKind) : Bool :=
  decide (addr + n ≤ Config.spaceSize) &&
    (List.range n).all fun q => s.regions.any fun r => r.admits kind (addr + q)

/-- The program text occupies an address (rule R176). -/
def ProgramText.holds (t : ProgramText) (a : Nat) : Bool :=
  decide (t.base.toNat ≤ a) && decide (a < t.base.toNat + t.size)

/-- A footprint of `n` bytes overlaps the program text (rule R55). -/
def ProgramText.overlaps (t : ProgramText) (addr n : Nat) : Bool :=
  decide (0 < t.size) && decide (addr < t.base.toNat + t.size) && decide (t.base.toNat < addr + n)

/-- One past the last byte of the program text (rule R176). -/
def ProgramText.finish (t : ProgramText) : Word := t.base + BitVec.ofNat 64 t.size

/-! ### Exceptions (rules R140, R147, R150, R155, R156) -/

/-- TAKING AN EXCEPTION. Every exception of the family is a fault and, by decision D11, ends the run: the
outcome carries the fault's name, and for `MemFault` the effective address (rule R150); no state is changed,
`pc` included (rules R12, R155). The spec describes no delivery and no return (rules R156, R157). -/
def raise (f : Fault) : Result := .fault f

/-- The exceptions of rule R140's table. -/
inductive Exception where
  | invalidOpcode
  | deviceNotAvailable
  | stackSegment
  | generalProtection
  | pageFault
  | alignmentCheck
  deriving DecidableEq, Repr

/-- The vector number of an exception (rule R140). -/
def exceptionVector : Exception → Nat
  | .invalidOpcode => 6
  | .deviceNotAvailable => 7
  | .stackSegment => 12
  | .generalProtection => 13
  | .pageFault => 14
  | .alignmentCheck => 17

/-- What an exception pushes as error code (rules R140 and R150): nothing, the code 0, or a fault code. -/
inductive ErrorCode where
  | none
  | zero
  | faultCode
  deriving DecidableEq, Repr

/-- The error code of an exception (rule R140). -/
def exceptionErrorCode : Exception → ErrorCode
  | .invalidOpcode | .deviceNotAvailable => .none
  | .stackSegment | .generalProtection | .alignmentCheck => .zero
  | .pageFault => .faultCode

/-- The exceptions a fault stands for (rules R140 and R147); `UnwrittenRead` is a verdict on the launch
state, not an exception (rule R172). -/
def faultExceptions : Fault → List Exception
  | .ud => [.invalidOpcode]
  | .nm => [.deviceNotAvailable]
  | .memFault _ => [.stackSegment, .generalProtection, .pageFault, .alignmentCheck]
  | .unwrittenRead _ => []

/-! ### The checks before an instruction runs (rules R83 (7), R114, R152) -/

/-- The checks every form makes before it reads an operand, in the order of rule R152: `#UD` in
real-address and virtual-8086 mode and when a feature flag or an operating-system enable is missing (rules
R143, R144), then `#NM` (rule R145). The protected 16/32-bit and compatibility modes are out of scope (rule R6). -/
def checked (f : Form) (s : State) (go : Result) : Result :=
  match s.mode with
  | .realAddress | .virtual8086 => raise .ud
  | .legacy32 => .refused .modeOutOfScope
  | .bits64 =>
    if s.featureOk f then
      if s.osTs then raise .nm else go
    else raise .ud

/-! ### Writemask (rules R103 to R106) -/

/-- Whether element `j` is written: every element without writemask (`aaa = 0`), else bit `j` of `K[aaa]`
(rules R24 and R103). -/
def State.enabled (s : State) (wm : Writemask) (j : Nat) : Bool :=
  wm.aaa == 0 || (s.getK wm.aaa).getLsbD j

/-- Element `j`, of `e` bits, of a value, in place: the other bits are 0. -/
def elementInPlace {w : Nat} (e j : Nat) (v : BitVec w) : BitVec w :=
  ((v.extractLsb' (j * e) e).setWidth w) <<< (j * e)

/-- The loop of rule R104 over the first `n` elements of `e` bits: an enabled element comes from `tmp`, a
disabled one from `old` under merging-masking and is 0 under zeroing-masking. -/
def blend {w : Nat} (e : Nat) (enabled : Nat → Bool) (z : Bool) (tmp old : BitVec w) : Nat → BitVec w
  | 0 => 0
  | j + 1 =>
    blend e enabled z tmp old j |||
      (if enabled j then elementInPlace e j tmp else if z then 0 else elementInPlace e j old)

/-- `WriteRegMasked` (rules R104 and R105): the low `w` bits by the loop, every bit above them 0. -/
def writeRegMasked {w : Nat} (s : State) (d : VReg) (tmp : BitVec w) (e n : Nat) (wm : Writemask) : State :=
  s.setZmm d ((blend e (s.enabled wm) wm.z tmp ((s.getZmm d).extractLsb' 0 w) n).setWidth Config.maxVL)

/-- The loop of rule R106 over the first `n` elements: `MemWrite` of each enabled element, no access to a
disabled one. -/
def writeElements {w : Nat} (m : Memory) (addr e : Nat) (enabled : Nat → Bool) (tmp : BitVec w) : Nat → Memory
  | 0 => m
  | j + 1 =>
    let m' := writeElements m addr e enabled tmp j
    if enabled j then Memory.writeLE m' (addr + j * e / 8) (e / 8) (tmp.extractLsb' (j * e) e) else m'

/-- A misaligned store of `n` bytes faults on alignment: only with alignment checking enabled at CPL 3, and
then as the processor decides (rule R42, decision D7; log entry 6). -/
def State.alignmentFaults (s : State) (ea : Word) (n : Nat) : Bool :=
  s.acEnabled && ea.toNat % n != 0 && Config.alignmentCheckFaults ea n

/-- A store with a footprint of `n` bytes at `ea` (rules R43, R45, R55, R106, R147): refused when the
footprint overlaps the program text; `MemFault` when it is not admitted; else memory becomes `write`'s. The
whole footprint is checked, whatever the writemask, before any byte is written. -/
def store (s : State) (ea : Word) (n : Nat) (write : Memory → Memory) (next : Word) : Result :=
  if s.text.overlaps ea.toNat n then .refused .storeIntoText
  else if !s.memAdmit ea.toNat n .write || s.alignmentFaults ea n then raise (.memFault ea)
  else .next { s with mem := write s.mem, pc := next }

/-- The destination write of an EVEX form (rules R100, R104 to R106, R111): `tmp` holds the selected block. -/
def writeMasked {w : Nat} (f : Form) (tmp : BitVec w) (dst : Operand) (wm : Writemask) (s : State) : Result :=
  let e := elementWidth f
  let n := elementCount f
  match dst with
  | .reg d => .next ((writeRegMasked s d tmp e n wm).setPc (nextPc s f dst))
  | .mem m =>
    let ea := storeAddress s f m
    store s ea (extractWidth f / 8) (fun mem => writeElements mem ea.toNat e (s.enabled wm) tmp n) (nextPc s f dst)

/-- The destination write of form F1, which has no writemask (rules R105, R106, R111, R120). -/
def writeWhole (tmp : BitVec 128) (dst : Operand) (s : State) : Result :=
  match dst with
  | .reg d => .next ((s.setZmm d (tmp.setWidth Config.maxVL)).setPc (nextPc s .f1 dst))
  | .mem m =>
    let ea := storeAddress s .f1 m
    store s ea 16 (fun mem => Memory.writeLE mem ea.toNat 16 tmp) (nextPc s .f1 dst)

end Sys2Proof.Machine
end

