-- ==== Sys2Proof/Machine/Vextracti128.lean ====
section
/-! DEFINITION. Vextracti128: the meaning of the rows of `41_vextracti128.md`. -/

namespace Sys2Proof.Machine

/-- VEXTRACTI128, form F1 (rule R120): bit 0 of the immediate selects a 128-bit block of the ymm source; no writemask. -/
def execVextracti128 (dst : Operand) (src : VReg) (imm : Byte) (s : State) : Result :=
  checked .f1 s (writeWhole (sel128 (vectorLength .f1) (s.getZmm src) imm) dst s)

end Sys2Proof.Machine
end

