-- ==== Sys2Proof/Machine/Vextracti32x4.lean ====
section
/-! DEFINITION. Vextracti32x4: the meaning of the rows of `42_vextracti32x4.md`. -/

namespace Sys2Proof.Machine

/-- VEXTRACTI32x4 with a 256-bit source, form F2 (rule R121): block `imm8[0]`, four 32-bit elements. -/
def execVextracti32x4V256 (dst : Operand) (src : VReg) (imm : Byte) (wm : Writemask) (s : State) : Result :=
  checked .f2 s (writeMasked .f2 (sel128 (vectorLength .f2) (s.getZmm src) imm) dst wm s)

/-- VEXTRACTI32x4 with a 512-bit source, form F3 (rule R122): block `imm8[1:0]`, four 32-bit elements. -/
def execVextracti32x4V512 (dst : Operand) (src : VReg) (imm : Byte) (wm : Writemask) (s : State) : Result :=
  checked .f3 s (writeMasked .f3 (sel128 (vectorLength .f3) (s.getZmm src) imm) dst wm s)

end Sys2Proof.Machine
end

