-- ==== Sys2Proof/Machine/Vextracti32x8.lean ====
section
/-! DEFINITION. Vextracti32x8: the meaning of the rows of `44_vextracti32x8.md`. -/

namespace Sys2Proof.Machine

/-- VEXTRACTI32x8, form F6 (rule R125): half `imm8[0]` of the zmm source, eight 32-bit elements. -/
def execVextracti32x8 (dst : Operand) (src : VReg) (imm : Byte) (wm : Writemask) (s : State) : Result :=
  checked .f6 s (writeMasked .f6 (sel256 (s.getZmm src) imm) dst wm s)

end Sys2Proof.Machine
end

