-- ==== Sys2Proof/Machine/Vextracti64x2.lean ====
section
/-! DEFINITION. Vextracti64x2: the meaning of the rows of `43_vextracti64x2.md`. -/

namespace Sys2Proof.Machine

/-- VEXTRACTI64x2 with a 256-bit source, form F4 (rule R123): block `imm8[0]`, two 64-bit elements. -/
def execVextracti64x2V256 (dst : Operand) (src : VReg) (imm : Byte) (wm : Writemask) (s : State) : Result :=
  checked .f4 s (writeMasked .f4 (sel128 (vectorLength .f4) (s.getZmm src) imm) dst wm s)

/-- VEXTRACTI64x2 with a 512-bit source, form F5 (rule R124): block `imm8[1:0]`, two 64-bit elements. -/
def execVextracti64x2V512 (dst : Operand) (src : VReg) (imm : Byte) (wm : Writemask) (s : State) : Result :=
  checked .f5 s (writeMasked .f5 (sel128 (vectorLength .f5) (s.getZmm src) imm) dst wm s)

end Sys2Proof.Machine
end

