-- ==== Sys2Proof/Machine/Vextracti64x4.lean ====
section
/-! DEFINITION. Vextracti64x4: the meaning of the rows of `45_vextracti64x4.md`. -/

namespace Sys2Proof.Machine

/-- VEXTRACTI64x4, form F7 (rule R126): half `imm8[0]` of the zmm source, four 64-bit elements. -/
def execVextracti64x4 (dst : Operand) (src : VReg) (imm : Byte) (wm : Writemask) (s : State) : Result :=
  checked .f7 s (writeMasked .f7 (sel256 (s.getZmm src) imm) dst wm s)

end Sys2Proof.Machine
end

