-- ==== Sys2Proof/Machine/Dispatch.lean ====
section
/-! DEFINITION. Dispatch: each instruction's meaning (rules R114 and R120 to R126). -/

namespace Sys2Proof.Machine

def exec (i : Instr) (s : State) : Host.Outcome State Fault Refusal :=
  match i with
  | .vextracti128 dst src imm => Sys2Proof.Machine.execVextracti128 dst src imm s
  | .vextracti32x4V256 dst src imm wm => Sys2Proof.Machine.execVextracti32x4V256 dst src imm wm s
  | .vextracti32x4V512 dst src imm wm => Sys2Proof.Machine.execVextracti32x4V512 dst src imm wm s
  | .vextracti64x2V256 dst src imm wm => Sys2Proof.Machine.execVextracti64x2V256 dst src imm wm s
  | .vextracti64x2V512 dst src imm wm => Sys2Proof.Machine.execVextracti64x2V512 dst src imm wm s
  | .vextracti32x8 dst src imm wm => Sys2Proof.Machine.execVextracti32x8 dst src imm wm s
  | .vextracti64x4 dst src imm wm => Sys2Proof.Machine.execVextracti64x4 dst src imm wm s

end Sys2Proof.Machine
end

