-- ==== Sys2Proof/Machine/Fetch.lean ====
section
/-! DEFINITION. Fetch: reading the bytes of an instruction from the program text (rules R75 and R176), and placing a
program in memory (rule R171). -/

namespace Sys2Proof.Machine

/-- Why the bytes from `pc` on end. -/
inductive FetchStop where
  /-- The address is outside the program text (rule R176). -/
  | outsideText
  /-- `MemAdmit(addr, 1, fetch)` fails (rule R75). -/
  | notAdmitted
  /-- Memory holds no byte at the address (rule R9). -/
  | unwritten (addr : Nat)
  deriving DecidableEq, Repr

/-- The byte fetched at an address (rule R75). -/
def fetchByte (s : State) (a : Nat) : Except FetchStop Byte :=
  if s.text.holds a then
    if s.memAdmit a 1 .fetch then
      match Memory.read s.mem a with
      | some b => .ok b
      | none => .error (.unwritten a)
    else .error .notAdmitted
  else .error .outsideText

/-- Up to `n` bytes from an address on, and why they end, if they do. -/
def fetchWindow (s : State) : (n : Nat) → (a : Nat) → List Byte × Option FetchStop
  | 0, _ => ([], none)
  | n + 1, a =>
    match fetchByte s a with
    | .error e => ([], some e)
    | .ok b => (b :: (fetchWindow s n (a + 1)).1, (fetchWindow s n (a + 1)).2)

/-- The outcome of a step whose instruction needs a byte that cannot be fetched (rules R75, R176, R9). -/
def fetchFailure : Option FetchStop → Result
  | some .notAdmitted => .refused .fetchNotAdmitted
  | some (.unwritten a) => raise (.unwrittenRead a)
  | some .outsideText => .refused .outsideText
  | none => .refused .outsideText

/-- The bytes that the fetch offers to the decoder: up to the longest instruction, from `pc` on (rule R60). -/
def fetchBytes (s : State) : List Byte × Option FetchStop := fetchWindow s maxLength s.pc.toNat

/-- The run has ended: `pc` is one past the program text (rule R176). -/
def State.ended (s : State) : Bool := s.pc == s.text.finish

/-- A program loaded from outside the machine: its bytes placed from `pc` on, in memory and as the program
text, and admitted for fetching (rules R171 and R176). -/
def State.loadText (s : State) (bytes : List Byte) : State :=
  { s with
    mem := Memory.writeBytes s.mem s.pc.toNat bytes
    text := ⟨s.pc, bytes.length⟩
    regions := ⟨s.pc.toNat, bytes.length, false, true⟩ :: s.regions }

end Sys2Proof.Machine
end

