-- ==== Sys2Proof/Machine/Step.lean ====
section
/-! DEFINITION. Step: one step of the machine (rule R114). -/

namespace Sys2Proof.Machine

/-- One step (rules R114, R174 to R176): nothing when the run has ended, else fetch, decode and run the
instruction at `pc`. The decoder is the one of 64-bit mode (decision D1), so any other mode is refused. -/
def step (s : State) : Host.Outcome State Fault Refusal :=
  if s.mode ≠ .bits64 then .refused .modeOutOfScope
  else if s.ended then .refused .programEnded
  else
    match decode (fetchBytes s).1 with
    | .insn i _ => exec i s
    | .ud => raise .ud
    | .refused .otherInstruction => .refused .otherInstruction
    | .refused .truncated => fetchFailure (fetchBytes s).2

/-- The state with the instruction of a table word loaded at `pc` as the program: the bytes up to the longest
instruction, every bit from `nbits` up 0 (rules R171, R176; log entry 4). -/
def State.withFetchWord (s : State) (nbits w : Nat) : State :=
  s.loadText (natBytes maxLength (w % 2 ^ nbits))

end Sys2Proof.Machine
end

