-- ==== Sys2Proof/Machine/Assembly.lean ====
section
/-! DEFINITION. Assembly: the parts of an instruction's assembler line in Intel operand order (`30_encoding.md` rules R73
and R80). No step reads it. -/

namespace Sys2Proof.Machine

/-- The base of an assembler memory operand: none, a general register by number, or RIP. -/
inductive AsmBase where
  | none
  | rip
  | gpr (r : GReg)
  deriving DecidableEq, Repr

/-- A destination as the assembler line names it (rule R80). -/
inductive AsmOperand where
  /-- A register by width in bits and number: 128 is xmm, 256 is ymm. -/
  | reg (width : Nat) (r : VReg)
  /-- A memory operand by size in bits (128 is `XMMWORD PTR`, 256 is `YMMWORD PTR`), base, index with its
  factor, and displacement. -/
  | mem (width : Nat) (base : AsmBase) (index : Option (GReg × Nat)) (disp : Int)
  deriving DecidableEq, Repr

/-- An assembler line: mnemonic, destination, the optional writemask and zeroing marks, source, immediate
(rule R80). -/
structure AsmLine where
  mnemonic : String
  dst : AsmOperand
  k : Option KReg
  z : Bool
  srcWidth : Nat
  src : VReg
  imm : Byte
  deriving DecidableEq, Repr

/-- The mnemonic of a form in the assembler's spelling (rules R2, R73, R80). -/
def asmMnemonic : Form → String
  | .f1 => "vextracti128"
  | .f2 | .f3 => "vextracti32x4"
  | .f4 | .f5 => "vextracti64x2"
  | .f6 => "vextracti32x8"
  | .f7 => "vextracti64x4"

/-- The displacement as the assembler writes it: an 8-bit one is written multiplied by its scale (rule R67). -/
def asmDisp (scale : Nat) : Disp → Int
  | .none => 0
  | .disp8 d => d.toInt * scale
  | .disp32 d => d.toInt

/-- An index with its factor 1, 2, 4 or 8; index 0100 is none (rule R66). -/
def asmIndex (index : GReg) (scale : BitVec 2) : Option (GReg × Nat) :=
  if index = 0b0100 then none else some (index, 2 ^ scale.toNat)

/-- The destination of a form (rules R73 and R80). -/
def asmOperand (f : Form) : Operand → AsmOperand
  | .reg d => .reg (extractWidth f) d
  | .mem (.ripRel d) => .mem (extractWidth f) .rip none d.toInt
  | .mem (.base b d) => .mem (extractWidth f) (.gpr b) none (asmDisp f.dispScale d)
  | .mem (.sib b i sc d) => .mem (extractWidth f) (.gpr b) (asmIndex i sc) (asmDisp f.dispScale d)
  | .mem (.sibNoBase i sc d) => .mem (extractWidth f) .none (asmIndex i sc) d.toInt

/-- The assembler line of an instruction (rule R80): no writemask mark stands for `aaa = 000`, no zeroing
mark for `z = 0`. -/
def assembly (i : Instr) : AsmLine where
  mnemonic := asmMnemonic i.form
  dst := asmOperand i.form i.dst
  k := if i.writemask.aaa = 0 then none else some i.writemask.aaa
  z := i.writemask.z
  srcWidth := vectorLength i.form
  src := i.src
  imm := i.imm

end Sys2Proof.Machine
end

