-- ==== Sys2Proof/Machine/Intrinsics.lean ====
section
/-! DEFINITION. Intrinsics: the values of the nineteen compiler intrinsics of `46_intrinsics.md`. They are no part of the
machine's step; they say which register value each prototype returns. -/

namespace Sys2Proof.Machine

/-- The masking flavours of the prototypes (rule R135). -/
inductive Flavour where
  | plain
  | mask
  | maskz
  deriving DecidableEq, Repr

/-- The nineteen prototypes (rules R130 to R134), without the leading underscore. -/
inductive Intrinsic where
  | mm512_extracti32x4_epi32
  | mm512_mask_extracti32x4_epi32
  | mm512_maskz_extracti32x4_epi32
  | mm256_extracti32x4_epi32
  | mm256_mask_extracti32x4_epi32
  | mm256_maskz_extracti32x4_epi32
  | mm512_extracti32x8_epi32
  | mm512_mask_extracti32x8_epi32
  | mm512_maskz_extracti32x8_epi32
  | mm512_extracti64x2_epi64
  | mm512_mask_extracti64x2_epi64
  | mm512_maskz_extracti64x2_epi64
  | mm256_extracti64x2_epi64
  | mm256_mask_extracti64x2_epi64
  | mm256_maskz_extracti64x2_epi64
  | mm512_extracti64x4_epi64
  | mm512_mask_extracti64x4_epi64
  | mm512_maskz_extracti64x4_epi64
  | mm256_extracti128_si256
  deriving DecidableEq, Repr

/-- The form an intrinsic uses (rules R130 to R134). -/
def Intrinsic.form : Intrinsic → Form
  | .mm512_extracti32x4_epi32 | .mm512_mask_extracti32x4_epi32 | .mm512_maskz_extracti32x4_epi32 => .f3
  | .mm256_extracti32x4_epi32 | .mm256_mask_extracti32x4_epi32 | .mm256_maskz_extracti32x4_epi32 => .f2
  | .mm512_extracti32x8_epi32 | .mm512_mask_extracti32x8_epi32 | .mm512_maskz_extracti32x8_epi32 => .f6
  | .mm512_extracti64x2_epi64 | .mm512_mask_extracti64x2_epi64 | .mm512_maskz_extracti64x2_epi64 => .f5
  | .mm256_extracti64x2_epi64 | .mm256_mask_extracti64x2_epi64 | .mm256_maskz_extracti64x2_epi64 => .f4
  | .mm512_extracti64x4_epi64 | .mm512_mask_extracti64x4_epi64 | .mm512_maskz_extracti64x4_epi64 => .f7
  | .mm256_extracti128_si256 => .f1

/-- The masking flavour of an intrinsic (rule R135). -/
def Intrinsic.flavour : Intrinsic → Flavour
  | .mm512_extracti32x4_epi32 | .mm256_extracti32x4_epi32 | .mm512_extracti32x8_epi32
  | .mm512_extracti64x2_epi64 | .mm256_extracti64x2_epi64 | .mm512_extracti64x4_epi64
  | .mm256_extracti128_si256 => .plain
  | .mm512_mask_extracti32x4_epi32 | .mm256_mask_extracti32x4_epi32 | .mm512_mask_extracti32x8_epi32
  | .mm512_mask_extracti64x2_epi64 | .mm256_mask_extracti64x2_epi64 | .mm512_mask_extracti64x4_epi64 => .mask
  | .mm512_maskz_extracti32x4_epi32 | .mm256_maskz_extracti32x4_epi32 | .mm512_maskz_extracti32x8_epi32
  | .mm512_maskz_extracti64x2_epi64 | .mm256_maskz_extracti64x2_epi64
  | .mm512_maskz_extracti64x4_epi64 => .maskz

/-- The block of `a` that `nidx` selects (rules R100 to R102). -/
def selectBlock : (f : Form) → BitVec (vectorLength f) → Byte → BitVec (extractWidth f)
  | .f1, a, n => sel128 256 (a.setWidth _) n
  | .f2, a, n => sel128 256 (a.setWidth _) n
  | .f3, a, n => sel128 512 a n
  | .f4, a, n => sel128 256 (a.setWidth _) n
  | .f5, a, n => sel128 512 a n
  | .f6, a, n => sel256 a n
  | .f7, a, n => sel256 a n

/-- The value an intrinsic returns (rule R135), with `a` the source, `n` the immediate, `k` the mask and `s`
the pass-through vector; a flavour that has no `k` or `s` does not read it. -/
def intrinsicResult (i : Intrinsic) (s : BitVec (extractWidth i.form)) (k : BitVec 8)
    (a : BitVec (vectorLength i.form)) (n : Byte) : BitVec (extractWidth i.form) :=
  let tmp := selectBlock i.form a n
  match i.flavour with
  | .plain => tmp
  | .mask => blend (elementWidth i.form) k.getLsbD false tmp s (elementCount i.form)
  | .maskz => blend (elementWidth i.form) k.getLsbD true tmp s (elementCount i.form)

end Sys2Proof.Machine
end

