-- ==== Sys2Proof/Machine/Run.lean ====
section
/-! DEFINITION. Run: the run of a program from a launch state (rules R174 to R176). -/

namespace Sys2Proof.Machine

/-- How a run stands (rules R174 to R176). A fault or a refusal comes with the state before the step that gave
it, which that step left unchanged (rule R155). -/
inductive RunResult where
  /-- The program ended normally: the final state (rule R176). -/
  | ended (s : State)
  | faulted (f : Fault) (s : State)
  | refused (r : Refusal) (s : State)
  /-- The step count ran out before the run ended. -/
  | unfinished (s : State)
  deriving DecidableEq, Repr

/-- The run of at most `n` steps (rule R174): it ends at the first fault or refusal, or where the program text
ends. -/
def run : (n : Nat) → State → RunResult
  | 0, s => .unfinished s
  | n + 1, s =>
    match step s with
    | .next t => run n t
    | .fault f => .faulted f s
    | .refused .programEnded => .ended s
    | .refused r => .refused r s

/-- The instructions of a list run one after another, with no fetch: what rule R176 says of a program text
that is a concatenation of admitted instructions. -/
def runInstrs : List Instr → State → RunResult
  | [], s => .ended s
  | i :: is, s =>
    match exec i s with
    | .next t => runInstrs is t
    | .fault f => .faulted f s
    | .refused r => .refused r s

end Sys2Proof.Machine
end

