-- ==== Sys2Proof/Safety.lean ====
section
/-! DEFINITION. Safety: the terms in which claims are stated: the machine's invariant, when an instruction may run, and
what it means for a state to hold a program. -/

namespace Sys2Proof.Machine

/-- The invariant every step keeps: memory is in its canonical form and the program text does not wrap
(rules R32 and R176). -/
def State.Inv (s : State) : Prop :=
  s.mem.wf ∧ s.text.base.toNat + s.text.size ≤ Config.spaceSize

/-- The checks of rules R143 to R145 pass: 64-bit mode, feature flags and operating-system enables set,
CR0.TS clear. -/
def State.Ready (s : State) (f : Form) : Prop :=
  s.mode = .bits64 ∧ s.featureOk f = true ∧ s.osTs = false

/-- No address of a footprint of `n` bytes at `ea` holds program text (rule R55). -/
def State.FootprintClear (s : State) (ea : Word) (n : Nat) : Prop :=
  ∀ q < n, s.text.holds (ea.toNat + q) = false

/-- A footprint of `n` bytes at `ea` lies in the address space and each of its bytes is admitted for writing
(rules R45, R48, R49). -/
def State.FootprintAdmitted (s : State) (ea : Word) (n : Nat) : Prop :=
  ea.toNat + n ≤ Config.spaceSize ∧ ∀ q < n, ∃ r ∈ s.regions, r.admits .write (ea.toNat + q) = true

/-- A store of `n` bytes at `ea` is admitted, clear of the program text, and alignment checking is off (rules
R45, R55 and decision D7). -/
def State.StoreReady (s : State) (ea : Word) (n : Nat) : Prop :=
  s.FootprintClear ea n ∧ s.FootprintAdmitted ea n ∧ s.acEnabled = false

/-- Memory holds the bytes from an address on. -/
def State.HoldsBytes (s : State) (a : Nat) (bytes : List Byte) : Prop :=
  ∀ q (h : q < bytes.length), Memory.read s.mem (a + q) = some bytes[q]

/-- The program text is exactly these bytes: memory holds them at its base, it has their length and does not
wrap, and each is admitted for fetching (rules R75 and R176). -/
def State.HoldsText (s : State) (bytes : List Byte) : Prop :=
  s.text.size = bytes.length ∧ s.text.base.toNat + bytes.length ≤ Config.spaceSize ∧
    s.HoldsBytes s.text.base.toNat bytes ∧
    ∀ q < bytes.length, s.memAdmit (s.text.base.toNat + q) 1 .fetch = true

/-- The byte `b` can be fetched at an address: it stands there in the program text and is admitted for fetching
(rules R75 and R176). -/
def State.Fetchable (s : State) (a : Nat) (b : Byte) : Prop :=
  s.text.holds a = true ∧ a < Config.spaceSize ∧ (∃ r ∈ s.regions, r.admits .fetch a = true) ∧
    Memory.read s.mem a = some b

/-- The first `k` of these bytes can be fetched from `pc` on. -/
def State.FetchesTo (s : State) (bytes : List Byte) (k : Nat) : Prop :=
  ∀ q < k, s.Fetchable (s.pc.toNat + q) (bytes.getD q 0)

/-- These bytes can be fetched from `pc` on. -/
abbrev State.Fetches (s : State) (bytes : List Byte) : Prop := s.FetchesTo bytes bytes.length

/-- ModRM, SIB, displacement and immediate, with nothing after them (rule R60). Which registers the prefix
names does not matter for that. -/
abbrev CompletesInstruction (tail : List Byte) : Prop := (takeTail 0 0 0 tail).map (·.rest) = some []

/-- The bytes of one whole instruction with an opcode of the family, reserved settings or not (rules R60, R73,
R74, R76, R77). -/
inductive WholeInstruction : List Byte → Prop where
  | vex (b1 b2 : Byte) (tail : List Byte) (map : b1.extractLsb' 0 5 = 0b00011) (pp : b2.extractLsb' 0 2 = 0b01)
      (complete : CompletesInstruction tail) : WholeInstruction (0xC4 :: b1 :: b2 :: 0x39 :: tail)
  | evex (p0 p1 p2 opcode : Byte) (tail : List Byte) (map : p0.extractLsb' 0 2 = 0b11)
      (pp : p1.extractLsb' 0 2 = 0b01) (op : opcode = 0x39 ∨ opcode = 0x3B)
      (complete : CompletesInstruction tail) : WholeInstruction (0x62 :: p0 :: p1 :: p2 :: opcode :: tail)

/-- The writemask enables element `j`: there is none, or its bit is 1 (rules R24 and R103). -/
abbrev State.ElementEnabled (s : State) (wm : Writemask) (j : Nat) : Prop :=
  wm.aaa = 0 ∨ (s.getK wm.aaa).getLsbD j = true

/-- From `s` to `t`, register `d` received the block `tmp` element by element under the writemask with every
bit above it 0 (rules R104 and R105), the pc is `next`, and nothing else changed (rule R109). -/
def RegisterWritten {w : Nat} (e : Nat) (d : VReg) (tmp : BitVec w) (wm : Writemask) (next : Word)
    (s t : State) : Prop :=
  (∀ j < w / e, (t.getZmm d).extractLsb' (j * e) e =
    if s.ElementEnabled wm j then tmp.extractLsb' (j * e) e
    else if wm.z then 0 else (s.getZmm d).extractLsb' (j * e) e) ∧
  (∀ b, w ≤ b → (t.getZmm d).getLsbD b = false) ∧
  (∀ r, r ≠ d → t.getZmm r = s.getZmm r) ∧
  t = { s with zmm := t.zmm, pc := next }

/-- From `s` to `t`, the enabled elements of the block `tmp` were stored at `ea`, little-endian (rules R40,
R44, R106), every other byte of memory is as before, the pc is `next`, and nothing else changed (rule R109). -/
def FootprintWritten {w : Nat} (e : Nat) (ea : Word) (tmp : BitVec w) (wm : Writemask) (next : Word)
    (s t : State) : Prop :=
  (∀ j < w / e, ∀ q < e / 8, Memory.read t.mem (ea.toNat + j * (e / 8) + q) =
    if s.ElementEnabled wm j then some (tmp.extractLsb' (j * e + 8 * q) 8)
    else Memory.read s.mem (ea.toNat + j * (e / 8) + q)) ∧
  (∀ a, a < ea.toNat ∨ ea.toNat + w / 8 ≤ a → Memory.read t.mem a = Memory.read s.mem a) ∧
  t = { s with mem := t.mem, pc := next }

/-- A step's outcome with the next state changed by a function: faults and refusals are the same. -/
def mapNext (g : State → State) : Result → Result
  | .next s => .next (g s)
  | .fault f => .fault f
  | .refused r => .refused r

end Sys2Proof.Machine
end

