-- ==== Sys2Proof/Certificates/Slice0/Obligations.lean ====
section
/-! DEFINITION. Obligations: the statements for the provers. -/

open Sys2Proof Sys2Proof.Machine

/-! ### Encoding and decoding -/

/-- Tier 3: decoding an encoded well-formed instruction gives it back, with the bytes that follow. -/
def Obligations.DecodeOfEncodeGivesTheInstruction : Prop :=
  ∀ (i : Instr) (rest : List Byte), i.wf = true → decode (encode i ++ rest) = .insn i rest

/-- Rule R60's table of lengths, by the addressing form; a form is one byte longer with the EVEX prefix. -/
def Obligations.LengthsFollowTheLengthTable : Prop :=
  ∀ i : Instr, i.length = (if i.form = .f1 then 0 else 1) +
    match i.dst with
    | .reg _ => 6
    | .mem (.base _ .none) => 6
    | .mem (.ripRel _) => 10
    | .mem (.sib _ _ _ .none) => 7
    | .mem (.sibNoBase _ _ _) => 11
    | .mem (.base _ (.disp8 _)) => 7
    | .mem (.sib _ _ _ (.disp8 _)) => 8
    | .mem (.base _ (.disp32 _)) => 10
    | .mem (.sib _ _ _ (.disp32 _)) => 11

/-- What the decoder reads is a well-formed instruction, exactly as long as its length says. -/
def Obligations.DecodedInstructionIsAWellFormedPrefix : Prop :=
  ∀ (bytes : List Byte) (i : Instr) (rest : List Byte), decode bytes = .insn i rest →
    i.wf = true ∧ bytes = bytes.take i.length ++ rest ∧ bytes.length = i.length + rest.length

/-- Bytes that decode match the row of their form in the opcode table and no other row. -/
def Obligations.DecodedBytesMatchTheirTableRowOnly : Prop :=
  ∀ (bytes : List Byte) (i : Instr) (rest : List Byte), decode bytes = .insn i rest →
    ∀ r ∈ opcodeTable, r.matches bytes = true ↔ r.form = i.form

/-- Bytes that match a row of the opcode table, with bytes behind the opcode that complete an instruction, decode
to that row's form; the exception is the row's `z` constraint, which raises `#UD` (rule R77 g, h). -/
def Obligations.BytesMatchingARowDecodeToItsForm : Prop :=
  ∀ (bytes : List Byte) (r : OpcodeRow), r ∈ opcodeTable → r.matches bytes = true →
    (takeTail 0 0 0 (bytes.drop r.pattern.length)).isSome = true →
    if r.form ≠ .f1 ∧ (bytes.getD 3 0).getLsbD 7 = true ∧
        ((bytes.getD 3 0).extractLsb' 0 3 = 0 ∨ (bytes.getD 5 0).extractLsb' 6 2 ≠ 3)
    then decode bytes = .ud
    else ∃ i rest, decode bytes = .insn i rest ∧ i.form = r.form

/-- Rule R76: a stored `vvvv` other than 1111b, and VEX.L = 0, raise `#UD`, in any whole instruction that can be
fetched, whatever follows it. -/
def Obligations.SourceReservedSettingsRaiseUD : Prop :=
  ∀ (s : State) (b1 b2 p0 p1 p2 opcode : Byte) (tail : List Byte),
    s.mode = .bits64 → s.ended = false → CompletesInstruction tail →
    (s.Fetches (0xC4 :: b1 :: b2 :: 0x39 :: tail) → b1.extractLsb' 0 5 = 0b00011 →
      b2.extractLsb' 0 2 = 0b01 → (b2.extractLsb' 3 4 ≠ 0b1111 ∨ b2.getLsbD 2 = false) →
      step s = .fault .ud) ∧
    (s.Fetches (0x62 :: p0 :: p1 :: p2 :: opcode :: tail) → p0.extractLsb' 0 2 = 0b11 →
      p1.extractLsb' 0 2 = 0b01 → (opcode = 0x39 ∨ opcode = 0x3B) → p1.extractLsb' 3 4 ≠ 0b1111 →
      step s = .fault .ud)

/-- Rule R77 a to h: the other reserved settings raise `#UD`, in any whole instruction that can be fetched,
whatever follows it. -/
def Obligations.OtherReservedSettingsRaiseUD : Prop :=
  ∀ (s : State) (b1 b2 p0 p1 p2 opcode modrm : Byte) (tail : List Byte),
    s.mode = .bits64 → s.ended = false → CompletesInstruction (modrm :: tail) →
    (s.Fetches (0xC4 :: b1 :: b2 :: 0x39 :: modrm :: tail) → b1.extractLsb' 0 5 = 0b00011 →
      b2.extractLsb' 0 2 = 0b01 → b2.getLsbD 7 = true → step s = .fault .ud) ∧
    (s.Fetches (0x62 :: p0 :: p1 :: p2 :: opcode :: modrm :: tail) → p0.extractLsb' 0 2 = 0b11 →
      p1.extractLsb' 0 2 = 0b01 → (opcode = 0x39 ∨ opcode = 0x3B) →
      (p0.extractLsb' 2 2 ≠ 0 ∨ p1.getLsbD 2 = false ∨
        (opcode = 0x39 ∧ (p2.extractLsb' 5 2 = 0b00 ∨ p2.extractLsb' 5 2 = 0b11)) ∨
        (opcode = 0x3B ∧ p2.extractLsb' 5 2 ≠ 0b10) ∨
        p2.getLsbD 4 = true ∨ p2.getLsbD 3 = false ∨
        (p2.getLsbD 7 = true ∧ (p2.extractLsb' 0 3 = 0 ∨ modrm.extractLsb' 6 2 ≠ 0b11))) →
      step s = .fault .ud)

/-- `#UD` is only for bytes of the family's opcodes; any other first byte, map, `pp` or opcode is refused
(rules R61, R63, R74, R79). -/
def Obligations.OnlyTheFamilysOpcodesRaiseUDOrDecode : Prop :=
  ∀ bytes : List Byte, (∀ why, decode bytes ≠ .refused why) →
    (bytes.getD 0 0 = 0xC4 ∧ (bytes.getD 1 0).extractLsb' 0 5 = 0b00011 ∧
      (bytes.getD 2 0).extractLsb' 0 2 = 0b01 ∧ bytes.getD 3 0 = 0x39) ∨
    (bytes.getD 0 0 = 0x62 ∧ (bytes.getD 1 0).extractLsb' 0 2 = 0b11 ∧
      (bytes.getD 2 0).extractLsb' 0 2 = 0b01 ∧ (bytes.getD 4 0 = 0x39 ∨ bytes.getD 4 0 = 0x3B))

/-- The bytes of another instruction refuse the step, whatever follows them: another first byte (C5H, a legacy
prefix and a REX prefix among them), and another map, `pp` or opcode behind C4H or 62H (rules R14, R61, R63,
R74). -/
def Obligations.OtherInstructionsAreRefused : Prop :=
  ∀ (s : State), s.mode = .bits64 → s.ended = false →
    (∀ b, s.Fetches [b] → b ≠ 0xC4 → b ≠ 0x62 → step s = .refused .otherInstruction) ∧
    (∀ b1 b2 opcode, s.Fetches [0xC4, b1, b2, opcode] →
      (b1.extractLsb' 0 5 ≠ 0b00011 ∨ b2.extractLsb' 0 2 ≠ 0b01 ∨ opcode ≠ 0x39) →
      step s = .refused .otherInstruction) ∧
    (∀ p0 p1 p2 opcode, s.Fetches [0x62, p0, p1, p2, opcode] →
      (p0.extractLsb' 0 2 ≠ 0b11 ∨ p1.extractLsb' 0 2 ≠ 0b01 ∨ (opcode ≠ 0x39 ∧ opcode ≠ 0x3B)) →
      step s = .refused .otherInstruction)

/-- Twelve bytes are enough for any instruction of the family (rule R60). -/
def Obligations.TwelveBytesAreNeverTruncated : Prop :=
  ∀ bytes : List Byte, 12 ≤ bytes.length → decode bytes ≠ .refused .truncated

/-- The seven encodings of the table E-9 decode to their instructions. -/
def Obligations.WrittenOutWordsDecode : Prop :=
  decode [0xC4, 0xE3, 0x7D, 0x39, 0xD1, 0x01] = .insn (.vextracti128 (.reg 1) 2 1) [] ∧
  decode [0x62, 0xF3, 0x7D, 0x28, 0x39, 0xD1, 0x01] = .insn (.vextracti32x4V256 (.reg 1) 2 1 ⟨0, false⟩) [] ∧
  decode [0x62, 0xF3, 0x7D, 0x48, 0x39, 0xD1, 0x01] = .insn (.vextracti32x4V512 (.reg 1) 2 1 ⟨0, false⟩) [] ∧
  decode [0x62, 0xF3, 0xFD, 0x28, 0x39, 0xD1, 0x01] = .insn (.vextracti64x2V256 (.reg 1) 2 1 ⟨0, false⟩) [] ∧
  decode [0x62, 0xF3, 0xFD, 0x48, 0x39, 0xD1, 0x01] = .insn (.vextracti64x2V512 (.reg 1) 2 1 ⟨0, false⟩) [] ∧
  decode [0x62, 0xF3, 0x7D, 0x48, 0x3B, 0xD1, 0x01] = .insn (.vextracti32x8 (.reg 1) 2 1 ⟨0, false⟩) [] ∧
  decode [0x62, 0xF3, 0xFD, 0x48, 0x3B, 0xD1, 0x01] = .insn (.vextracti64x4 (.reg 1) 2 1 ⟨0, false⟩) []

/-! ### The step and the run -/

/-- A step in 64-bit mode, before the program's end, runs the decoded instruction. -/
def Obligations.StepRunsTheDecodedInstruction : Prop :=
  ∀ (s : State) (i : Instr) (rest : List Byte), s.mode = .bits64 → s.ended = false →
    decode (fetchBytes s).1 = .insn i rest → step s = exec i s

/-- Where the program text holds the encoding of a well-formed instruction at `pc`, the step is that
instruction (rules R75 and R114). -/
def Obligations.StepRunsTheEncodedInstructionAtPc : Prop :=
  ∀ (s : State) (i : Instr) (before after : List Byte), s.mode = .bits64 → i.wf = true →
    s.HoldsText (before ++ encode i ++ after) → (before ++ encode i ++ after).length < Config.spaceSize →
    s.pc = s.text.base + BitVec.ofNat 64 before.length → step s = exec i s

/-- Rule R176: a launch at the base of a text that is a concatenation of encoded instructions runs each of
them once, in order, and ends at its end unless one faults or is refused. -/
def Obligations.RunOfAProgramTextRunsItsInstructionsInOrder : Prop :=
  ∀ (is : List Instr) (s : State), s.mode = .bits64 → (∀ i ∈ is, i.wf = true) →
    s.HoldsText (is.flatMap encode) → (is.flatMap encode).length < Config.spaceSize → s.pc = s.text.base →
    run (is.length + 1) s = runInstrs is s

/-- A program word loaded at `pc` is what the next step runs, when its decoder accepts it. The load is THE MODEL'S
OWN, log entry 4. -/
def Obligations.StepRunsTheLoadedTableWord : Prop :=
  ∀ (s : State) (nbits w : Nat) (i : Instr), s.mode = .bits64 → s.pc.toNat + maxLength ≤ Config.spaceSize →
    decodeTableWord nbits w = some i → step (s.withFetchWord nbits w) = exec i (s.withFetchWord nbits w)

/-- One past the program text the run ends with the state as it is; at any other address outside it the step is
refused. THE MODEL'S OWN, log entry 16: that the step says the run's end by the refusal `programEnded`, and that
the end is compared modulo 2^64, so that a text of 2^64 bytes has its end at its base. Rule R176 says only that
the run ends normally at `base + n`, and that elsewhere outside the text the step is refused. -/
def Obligations.RunEndsOnlyAtTheEndOfTheText : Prop :=
  ∀ s : State, s.mode = .bits64 →
    (s.pc = s.text.finish → step s = .refused .programEnded ∧ ∀ n, run (n + 1) s = .ended s) ∧
    (s.pc ≠ s.text.finish → s.text.holds s.pc.toNat = false → step s = .refused .outsideText)

/-- Rule R75: a byte of an instruction that is in the text but not admitted for fetching, be it the first or the
last, refuses the step. Byte `k` is the first that cannot be fetched. THE MODEL'S OWN, log entry 11: that the
earliest such byte names the stop, and that this holds of an instruction with a reserved setting too. -/
def Obligations.FetchNeedsAdmission : Prop :=
  ∀ (s : State) (bytes : List Byte) (k : Nat), s.mode = .bits64 → s.ended = false →
    WholeInstruction bytes → k < bytes.length → s.FetchesTo bytes k →
    s.text.holds (s.pc.toNat + k) = true → (∀ r ∈ s.regions, r.admits .fetch (s.pc.toNat + k) = false) →
    step s = .refused .fetchNotAdmitted

/-- Rule R176: an instruction that needs a byte outside the program text, as one does that starts inside it and
runs past its end, refuses the step. Byte `k` is the first that cannot be fetched. THE MODEL'S OWN, log entry 11:
as for `FetchNeedsAdmission`. -/
def Obligations.InstructionPastTheTextIsRefused : Prop :=
  ∀ (s : State) (bytes : List Byte) (k : Nat), s.mode = .bits64 → s.ended = false →
    WholeInstruction bytes → k < bytes.length → s.FetchesTo bytes k →
    s.text.holds (s.pc.toNat + k) = false → step s = .refused .outsideText

/-- THE MODEL'S OWN, log entries 8 and 11: an instruction with a byte in the text, admitted for fetching, that
memory does not hold, ends in `UnwrittenRead` with that byte's address (rules R9 and R35). -/
def Obligations.UnwrittenProgramByteFaults : Prop :=
  ∀ (s : State) (bytes : List Byte) (k : Nat), s.mode = .bits64 → s.ended = false →
    WholeInstruction bytes → k < bytes.length → s.FetchesTo bytes k →
    s.text.holds (s.pc.toNat + k) = true → s.memAdmit (s.pc.toNat + k) 1 .fetch = true →
    Memory.read s.mem (s.pc.toNat + k) = none → step s = .fault (.unwrittenRead (s.pc.toNat + k))

/-- A run that ends in a fault reports the state in which the faulting step was taken (rules R155, R174). -/
def Obligations.FaultedRunReportsTheStateOfTheFault : Prop :=
  ∀ (n : Nat) (s u : State) (f : Fault), run n s = .faulted f u →
    step u = .fault f ∧ ∃ k < n, run k s = .unfinished u

/-! ### Invariants and frames -/

/-- Tier 3: every step keeps memory in its canonical form and the program text from wrapping. -/
def Obligations.StepKeepsTheInvariant : Prop :=
  ∀ s t : State, s.Inv → step s = .next t → t.Inv

/-- The state after reset meets the invariant. -/
def Obligations.ResetMeetsTheInvariant : Prop := State.reset.Inv

/-- Tier 3: every step keeps the program text: the same bytes at the same place, still fetchable. -/
def Obligations.StepKeepsTheProgramText : Prop :=
  ∀ (s t : State) (bytes : List Byte), s.HoldsText bytes → step s = .next t →
    t.HoldsText bytes ∧ t.text = s.text

/-- No instruction changes an opmask register, a general register, a flag, a control register, or anything
but its destination and the pc (rules R23, R25, R27, R28, R109, R111). -/
def Obligations.InstructionChangesOnlyItsDestination : Prop :=
  ∀ (i : Instr) (s t : State), exec i s = .next t →
    t = { s with zmm := t.zmm, mem := t.mem, pc := s.pc + BitVec.ofNat 64 i.length } ∧
    (∀ d, i.dst = .reg d → t.mem = s.mem ∧ ∀ r, r ≠ d → t.getZmm r = s.getZmm r) ∧
    (∀ m, i.dst = .mem m → t.zmm = s.zmm ∧
      ∀ a, a < (storeAddress s i.form m).toNat ∨ (storeAddress s i.form m).toNat + extractWidth i.form / 8 ≤ a →
        Memory.read t.mem a = Memory.read s.mem a)

/-- Rule R105: every register destination has 0 above the extracted block; form F1 writes the block whole. -/
def Obligations.RegisterDestinationIsZeroAboveTheBlock : Prop :=
  (∀ (i : Instr) (d : VReg) (s : State), i.dst = .reg d → s.Ready i.form →
    ∃ t, exec i s = .next t ∧ ∀ b, extractWidth i.form ≤ b → (t.getZmm d).getLsbD b = false) ∧
  (∀ (d src : VReg) (imm : Byte) (s : State), s.Ready .f1 →
    ∃ t, exec (.vextracti128 (.reg d) src imm) s = .next t ∧
      (t.getZmm d).extractLsb' 0 128 = sel128 256 (s.getZmm src) imm)

/-- Rule R104: the masked register write, for the widths of every EVEX form. -/
def Obligations.MaskedRegisterWriteFollowsTheLoop : Prop :=
  ∀ (f : Form) (s : State) (d : VReg) (tmp : BitVec (extractWidth f)) (wm : Writemask), f ≠ .f1 →
    RegisterWritten (elementWidth f) d tmp wm s.pc s
      (writeRegMasked s d tmp (elementWidth f) (elementCount f) wm)

/-! ### Selection and addresses -/

/-- Rule R101: the 128-bit block that the immediate selects. -/
def Obligations.Sel128PicksTheImmediatesBlock : Prop :=
  ∀ (src : Zmm) (imm : Byte),
    sel128 256 src imm = (if imm.getLsbD 0 then src.extractLsb' 128 128 else src.extractLsb' 0 128) ∧
    sel128 512 src imm =
      (if imm.extractLsb' 0 2 = 0b00 then src.extractLsb' 0 128
       else if imm.extractLsb' 0 2 = 0b01 then src.extractLsb' 128 128
       else if imm.extractLsb' 0 2 = 0b10 then src.extractLsb' 256 128
       else src.extractLsb' 384 128)

/-- Rule R102: the 256-bit half that the immediate selects. -/
def Obligations.Sel256PicksTheImmediatesHalf : Prop :=
  ∀ (src : Zmm) (imm : Byte),
    sel256 src imm = if imm.getLsbD 0 then src.extractLsb' 256 256 else src.extractLsb' 0 256

/-- Rule R107: the immediate's other bits are ignored, whatever the form, the operands and the state. -/
def Obligations.HighImmediateBitsAreIgnored : Prop :=
  (∀ (f : Form) (dst : Operand) (src : VReg) (imm : Byte) (wm : Writemask) (s : State),
    exec (.ofForm f dst src imm wm) s =
      exec (.ofForm f dst src (imm &&& (if f = .f3 ∨ f = .f5 then 0x03 else 0x01)) wm) s) ∧
  ∀ (dst : Operand) (src : VReg) (wm : Writemask) (s : State),
    exec (.vextracti32x4V256 dst src 3 wm) s = exec (.vextracti32x4V256 dst src 1 wm) s

/-- Rules R67 and R72: the address that every store uses, for each addressing form: relative to the address of
the next instruction for the RIP-relative form (whose length rule R60 gives), and with the displacement of one
byte multiplied by the form's factor. -/
def Obligations.EffectiveAddressFollowsTheAddressingForm : Prop :=
  ∀ (s : State) (f : Form) (b i : GReg) (sc : BitVec 2) (d8 : BitVec 8) (d32 : BitVec 32),
    let next : Word := s.pc + (if f = .f1 then 10 else 11)
    let n : Word := if f = .f1 then 1 else if f = .f6 ∨ f = .f7 then 32 else 16
    let index : Word := if i = 4 then 0 else s.getGpr i * (1 <<< sc.toNat)
    storeAddress s f (.ripRel d32) = next + d32.signExtend 64 ∧
    storeAddress s f (.base b .none) = s.getGpr b ∧
    storeAddress s f (.base b (.disp8 d8)) = s.getGpr b + d8.signExtend 64 * n ∧
    storeAddress s f (.base b (.disp32 d32)) = s.getGpr b + d32.signExtend 64 ∧
    storeAddress s f (.sib b i sc .none) = s.getGpr b + index ∧
    storeAddress s f (.sib b i sc (.disp8 d8)) = s.getGpr b + index + d8.signExtend 64 * n ∧
    storeAddress s f (.sib b i sc (.disp32 d32)) = s.getGpr b + index + d32.signExtend 64 ∧
    storeAddress s f (.sibNoBase i sc d32) = index + d32.signExtend 64

/-! ### The seven instructions -/

/-- VEXTRACTI128 (rule R120): bit 0 of the immediate selects the block; the register destination is the block
with zeros above it; the memory destination is its 16 bytes. -/
def Obligations.Vextracti128CompletesWithItsResult : Prop :=
  ∀ (src : VReg) (imm : Byte) (s : State), s.Ready .f1 →
    let tmp : BitVec 128 := if imm.getLsbD 0 then (s.getZmm src).extractLsb' 128 128
      else (s.getZmm src).extractLsb' 0 128
    (∀ d, ∃ t, exec (.vextracti128 (.reg d) src imm) s = .next t ∧
      RegisterWritten 128 d tmp ⟨0, false⟩ (s.pc + 6) s t) ∧
    (∀ m, s.StoreReady (storeAddress s .f1 m) 16 →
      ∃ t, exec (.vextracti128 (.mem m) src imm) s = .next t ∧
        FootprintWritten 128 (storeAddress s .f1 m) tmp ⟨0, false⟩ (nextPc s .f1 (.mem m)) s t)

/-- VEXTRACTI32x4 with a 256-bit source (rule R121): four 32-bit elements of block `imm8[0]`. -/
def Obligations.Vextracti32x4OfYmmCompletesWithItsResult : Prop :=
  ∀ (src : VReg) (imm : Byte) (wm : Writemask) (s : State), s.Ready .f2 →
    let tmp : BitVec 128 := if imm.getLsbD 0 then (s.getZmm src).extractLsb' 128 128
      else (s.getZmm src).extractLsb' 0 128
    (∀ d, ∃ t, exec (.vextracti32x4V256 (.reg d) src imm wm) s = .next t ∧
      RegisterWritten 32 d tmp wm (s.pc + 7) s t) ∧
    (∀ m, s.StoreReady (storeAddress s .f2 m) 16 →
      ∃ t, exec (.vextracti32x4V256 (.mem m) src imm wm) s = .next t ∧
        FootprintWritten 32 (storeAddress s .f2 m) tmp wm (nextPc s .f2 (.mem m)) s t)

/-- VEXTRACTI32x4 with a 512-bit source (rule R122): four 32-bit elements of block `imm8[1:0]`. -/
def Obligations.Vextracti32x4OfZmmCompletesWithItsResult : Prop :=
  ∀ (src : VReg) (imm : Byte) (wm : Writemask) (s : State), s.Ready .f3 →
    let tmp : BitVec 128 :=
      if imm.getLsbD 1 then
        if imm.getLsbD 0 then (s.getZmm src).extractLsb' 384 128 else (s.getZmm src).extractLsb' 256 128
      else
        if imm.getLsbD 0 then (s.getZmm src).extractLsb' 128 128 else (s.getZmm src).extractLsb' 0 128
    (∀ d, ∃ t, exec (.vextracti32x4V512 (.reg d) src imm wm) s = .next t ∧
      RegisterWritten 32 d tmp wm (s.pc + 7) s t) ∧
    (∀ m, s.StoreReady (storeAddress s .f3 m) 16 →
      ∃ t, exec (.vextracti32x4V512 (.mem m) src imm wm) s = .next t ∧
        FootprintWritten 32 (storeAddress s .f3 m) tmp wm (nextPc s .f3 (.mem m)) s t)

/-- VEXTRACTI64x2 with a 256-bit source (rule R123): two 64-bit elements of block `imm8[0]`. -/
def Obligations.Vextracti64x2OfYmmCompletesWithItsResult : Prop :=
  ∀ (src : VReg) (imm : Byte) (wm : Writemask) (s : State), s.Ready .f4 →
    let tmp : BitVec 128 := if imm.getLsbD 0 then (s.getZmm src).extractLsb' 128 128
      else (s.getZmm src).extractLsb' 0 128
    (∀ d, ∃ t, exec (.vextracti64x2V256 (.reg d) src imm wm) s = .next t ∧
      RegisterWritten 64 d tmp wm (s.pc + 7) s t) ∧
    (∀ m, s.StoreReady (storeAddress s .f4 m) 16 →
      ∃ t, exec (.vextracti64x2V256 (.mem m) src imm wm) s = .next t ∧
        FootprintWritten 64 (storeAddress s .f4 m) tmp wm (nextPc s .f4 (.mem m)) s t)

/-- VEXTRACTI64x2 with a 512-bit source (rule R124): two 64-bit elements of block `imm8[1:0]`. -/
def Obligations.Vextracti64x2OfZmmCompletesWithItsResult : Prop :=
  ∀ (src : VReg) (imm : Byte) (wm : Writemask) (s : State), s.Ready .f5 →
    let tmp : BitVec 128 :=
      if imm.getLsbD 1 then
        if imm.getLsbD 0 then (s.getZmm src).extractLsb' 384 128 else (s.getZmm src).extractLsb' 256 128
      else
        if imm.getLsbD 0 then (s.getZmm src).extractLsb' 128 128 else (s.getZmm src).extractLsb' 0 128
    (∀ d, ∃ t, exec (.vextracti64x2V512 (.reg d) src imm wm) s = .next t ∧
      RegisterWritten 64 d tmp wm (s.pc + 7) s t) ∧
    (∀ m, s.StoreReady (storeAddress s .f5 m) 16 →
      ∃ t, exec (.vextracti64x2V512 (.mem m) src imm wm) s = .next t ∧
        FootprintWritten 64 (storeAddress s .f5 m) tmp wm (nextPc s .f5 (.mem m)) s t)

/-- VEXTRACTI32x8 (rule R125): eight 32-bit elements of half `imm8[0]`. -/
def Obligations.Vextracti32x8CompletesWithItsResult : Prop :=
  ∀ (src : VReg) (imm : Byte) (wm : Writemask) (s : State), s.Ready .f6 →
    let tmp : BitVec 256 := if imm.getLsbD 0 then (s.getZmm src).extractLsb' 256 256
      else (s.getZmm src).extractLsb' 0 256
    (∀ d, ∃ t, exec (.vextracti32x8 (.reg d) src imm wm) s = .next t ∧
      RegisterWritten 32 d tmp wm (s.pc + 7) s t) ∧
    (∀ m, s.StoreReady (storeAddress s .f6 m) 32 →
      ∃ t, exec (.vextracti32x8 (.mem m) src imm wm) s = .next t ∧
        FootprintWritten 32 (storeAddress s .f6 m) tmp wm (nextPc s .f6 (.mem m)) s t)

/-- VEXTRACTI64x4 (rule R126): four 64-bit elements of half `imm8[0]`. -/
def Obligations.Vextracti64x4CompletesWithItsResult : Prop :=
  ∀ (src : VReg) (imm : Byte) (wm : Writemask) (s : State), s.Ready .f7 →
    let tmp : BitVec 256 := if imm.getLsbD 0 then (s.getZmm src).extractLsb' 256 256
      else (s.getZmm src).extractLsb' 0 256
    (∀ d, ∃ t, exec (.vextracti64x4 (.reg d) src imm wm) s = .next t ∧
      RegisterWritten 64 d tmp wm (s.pc + 7) s t) ∧
    (∀ m, s.StoreReady (storeAddress s .f7 m) 32 →
      ∃ t, exec (.vextracti64x4 (.mem m) src imm wm) s = .next t ∧
        FootprintWritten 64 (storeAddress s .f7 m) tmp wm (nextPc s .f7 (.mem m)) s t)

/-! ### Exceptions and refusals -/

/-- Rules R143 and R144: a missing feature flag or operating-system enable raises `#UD` in 64-bit mode,
whatever CR0.TS says (rule R152); real-address and virtual-8086 mode raise it always. -/
def Obligations.MissingFeatureOrEnableRaisesUD : Prop :=
  ∀ (i : Instr) (s : State),
    (s.mode = .realAddress ∨ s.mode = .virtual8086 → exec i s = .fault .ud) ∧
    (s.mode = .bits64 →
      (match i.form with
        | .f1 => s.feat.avx2 = false
        | .f2 => s.feat.avx512vl = false ∨ s.feat.avx512f = false
        | .f3 | .f7 => s.feat.avx512f = false
        | .f4 => s.feat.avx512vl = false ∨ s.feat.avx512dq = false
        | .f5 | .f6 => s.feat.avx512dq = false) ∨
      s.cr4.getLsbD 18 = false ∨ s.xcr0.extractLsb' 1 2 ≠ 0b11 ∨
      (i.form ≠ .f1 ∧ s.xcr0.extractLsb' 5 3 ≠ 0b111) →
      exec i s = .fault .ud)

/-- Rule R145: with every `#UD` condition false, CR0.TS = 1 raises `#NM`, before any memory fault. -/
def Obligations.TaskSwitchedRaisesNM : Prop :=
  ∀ (i : Instr) (s : State), s.mode = .bits64 → s.featureOk i.form = true → s.cr0.getLsbD 3 = true →
    exec i s = .fault .nm

/-- Rules R45 and R147: a footprint with a byte that is not admitted faults, whatever the writemask. -/
def Obligations.WholeFootprintIsCheckedWhateverTheMask : Prop :=
  ∀ (i : Instr) (m : MemOperand) (s : State) (q : Nat), i.dst = .mem m → s.Ready i.form →
    s.FootprintClear (storeAddress s i.form m) (extractWidth i.form / 8) →
    q < extractWidth i.form / 8 →
    (∀ r ∈ s.regions, r.admits .write ((storeAddress s i.form m).toNat + q) = false) →
    exec i s = .fault (.memFault (storeAddress s i.form m))

/-- Rule R48: a footprint that runs past `2^64 - 1` faults. -/
def Obligations.FootprintPastTheTopFaults : Prop :=
  ∀ (i : Instr) (m : MemOperand) (s : State), i.dst = .mem m → s.Ready i.form →
    s.FootprintClear (storeAddress s i.form m) (extractWidth i.form / 8) →
    2 ^ 64 < (storeAddress s i.form m).toNat + extractWidth i.form / 8 →
    exec i s = .fault (.memFault (storeAddress s i.form m))

/-- Rule R55: a store whose footprint shares an address with the program text is refused, whatever the
writemask. THE MODEL'S OWN, log entry 10: that it is refused also where the footprint is not admitted. -/
def Obligations.StoreIntoTheProgramTextIsRefused : Prop :=
  ∀ (i : Instr) (m : MemOperand) (s : State) (a : Nat), i.dst = .mem m → s.Ready i.form →
    s.text.holds a = true → (storeAddress s i.form m).toNat ≤ a →
    a < (storeAddress s i.form m).toNat + extractWidth i.form / 8 →
    exec i s = .refused .storeIntoText

/-- Rules R48, R55 and R176, byte by byte: a footprint of at least one byte is clear of the program text exactly
when no address of it holds text, the text holds its range of addresses, and an admitted access fits the address
space. THE MODEL'S OWN, log entry 5: `MemAdmit` is a list of regions, so that an access that fits is admitted exactly
when each of its bytes lies in a region of its kind, and a region admits its range of addresses by its marks; rules
R7 and R49 leave the predicate to the launch. -/
def Obligations.FootprintConditionsAreByteByByte : Prop :=
  (∀ (t : ProgramText) (addr n : Nat), 0 < n →
    (t.overlaps addr n = false ↔ ∀ a, addr ≤ a → a < addr + n → t.holds a = false)) ∧
  (∀ (s : State) (addr n : Nat) (kind : AccessKind), s.memAdmit addr n kind = true ↔
    addr + n ≤ 2 ^ 64 ∧ ∀ a, addr ≤ a → a < addr + n → ∃ r ∈ s.regions, r.admits kind a = true) ∧
  (∀ (t : ProgramText) (a : Nat), t.holds a = true ↔ t.base.toNat ≤ a ∧ a < t.base.toNat + t.size) ∧
  (∀ (r : Region) (a : Nat),
    (r.admits .write a = true ↔ r.base ≤ a ∧ a < r.base + r.size ∧ r.writable = true) ∧
    (r.admits .fetch a = true ↔ r.base ≤ a ∧ a < r.base + r.size ∧ r.fetchable = true))

/-- THE MODEL'S OWN, log entry 6: with alignment checking on, an admitted store faults only when it is
misaligned, and otherwise completes; which it does when misaligned is left open (rule R42, decision D7). -/
def Obligations.AlignmentCheckConcernsMisalignedStoresOnly : Prop :=
  ∀ (i : Instr) (m : MemOperand) (s : State), i.dst = .mem m → s.Ready i.form →
    s.FootprintClear (storeAddress s i.form m) (extractWidth i.form / 8) →
    s.FootprintAdmitted (storeAddress s i.form m) (extractWidth i.form / 8) →
    ((storeAddress s i.form m).toNat % (extractWidth i.form / 8) = 0 → ∃ t, exec i s = .next t) ∧
    ((∃ t, exec i s = .next t) ∨ exec i s = .fault (.memFault (storeAddress s i.form m)))

/-- Rule R35: straight after power-up or RESET every form raises `#UD`. -/
def Obligations.EveryFormRaisesUDAtPowerUp : Prop :=
  ∀ (i : Instr) (signature : Word), exec i (State.powerUp signature) = .fault .ud

/-- THE MODEL'S OWN, log entry 1: the state after reset carries the launch premises of decisions D1, D2, D7
and D12, so every form may run. -/
def Obligations.ResetCarriesTheLaunchPremises : Prop :=
  (∀ f, State.reset.Ready f) ∧ State.reset.acEnabled = false ∧ State.reset.ended = true

/-! ### What an instruction does not depend on -/

/-- Rules R23, R24 and R103: with a writemask only the low bits of `K[aaa]`, one per element, can matter; without
one, and in form F1, no opmask register does. -/
def Obligations.OtherOpmaskBitsDoNotMatter : Prop :=
  ∀ (i : Instr) (s : State) (k : Vector KMask Config.nmask),
    (i.form ≠ .f1 → i.writemask.aaa ≠ 0 → ∀ j < elementCount i.form,
      (k[i.writemask.aaa.toNat]'i.writemask.aaa.isLt).getLsbD j = (s.getK i.writemask.aaa).getLsbD j) →
    exec i { s with k := k } = mapNext (fun t => { t with k := k }) (exec i s)

/-- Rules R27, R28 and R151: no status flag but AC and nothing of MXCSR is read, and neither is written. -/
def Obligations.FlagsAndMxcsrDoNotMatter : Prop :=
  ∀ (i : Instr) (s : State) (flags : BitVec 64) (mxcsr : BitVec 32),
    flags.getLsbD 18 = s.rflags.getLsbD 18 →
    exec i { s with rflags := flags, mxcsr := mxcsr } =
      mapNext (fun t => { t with rflags := flags, mxcsr := mxcsr }) (exec i s)

/-- Rule R43: no form reads data memory: the outcome but for memory is the same for any contents, and what is
written is the same for any contents: each byte afterwards is what the instruction leaves in a memory that holds
nothing, and where it leaves nothing there, the byte from before. -/
def Obligations.DataMemoryIsNotRead : Prop :=
  (∀ (i : Instr) (s : State) (mem : Memory),
    mapNext (fun t => { t with mem := [] }) (exec i { s with mem := mem }) =
      mapNext (fun t => { t with mem := [] }) (exec i s)) ∧
  ∀ (i : Instr) (s t t₀ : State), exec i s = .next t → exec i { s with mem := [] } = .next t₀ →
    ∀ a, Memory.read t.mem a = (Memory.read t₀.mem a).or (Memory.read s.mem a)

/-- Rules R29 and R30: the conditions made of the control registers' bits. -/
def Obligations.ControlConditionsReadTheirBits : Prop :=
  ∀ s : State,
    (s.osAvx = true ↔ s.xcr0.getLsbD 1 = true ∧ s.xcr0.getLsbD 2 = true ∧ s.cr4.getLsbD 18 = true) ∧
    (s.osAvx512 = true ↔ s.osAvx = true ∧ s.xcr0.getLsbD 5 = true ∧ s.xcr0.getLsbD 6 = true ∧
      s.xcr0.getLsbD 7 = true) ∧
    (s.osTs = true ↔ s.cr0.getLsbD 3 = true) ∧
    (s.acEnabled = true ↔ s.cr0.getLsbD 18 = true ∧ s.rflags.getLsbD 18 = true ∧ s.cpl = 3)

/-- Rules R143 and R144: `feature_ok` of a form holds exactly when the form's feature flags and the enables of its
class are set; no other flag or enable is asked for. -/
def Obligations.FeatureOkMeansTheFormsFlagsAndEnables : Prop :=
  ∀ (s : State) (f : Form), s.featureOk f = true ↔
    (match f with
      | .f1 => s.feat.avx2 = true
      | .f2 => s.feat.avx512vl = true ∧ s.feat.avx512f = true
      | .f3 | .f7 => s.feat.avx512f = true
      | .f4 => s.feat.avx512vl = true ∧ s.feat.avx512dq = true
      | .f5 | .f6 => s.feat.avx512dq = true) ∧
    s.cr4.getLsbD 18 = true ∧ s.xcr0.extractLsb' 1 2 = 0b11 ∧ (f ≠ .f1 → s.xcr0.extractLsb' 5 3 = 0b111)

/-! ### The forms among themselves -/

/-- Section 3.8 item 3: without writemask, the forms of one source width and one block width agree on the
destination. -/
def Obligations.UnmaskedFormsAgreeOnTheRegister : Prop :=
  ∀ (f g : Form) (d src : VReg) (imm : Byte) (z : Bool) (s : State),
    vectorLength f = vectorLength g → extractWidth f = extractWidth g → s.Ready f → s.Ready g →
    ∃ t u, exec (.ofForm f (.reg d) src imm ⟨0, z⟩) s = .next t ∧
      exec (.ofForm g (.reg d) src imm ⟨0, z⟩) s = .next u ∧ t.getZmm d = u.getZmm d

/-- Section 3.8 item 7: the upper half of a register, then block `b` of that half, is block `2 + b`. -/
def Obligations.UpperHalfThenBlockIsTheUpperBlock : Prop :=
  ∀ (d e src : VReg) (b : Bool) (s : State), s.Ready .f7 → s.Ready .f1 → s.Ready .f3 →
    ∃ t u v, exec (.vextracti64x4 (.reg d) src 1 ⟨0, false⟩) s = .next t ∧
      exec (.vextracti128 (.reg e) d (if b then 1 else 0)) t = .next u ∧
      exec (.vextracti32x4V512 (.reg e) src (if b then 3 else 2) ⟨0, false⟩) s = .next v ∧
      u.getZmm e = v.getZmm e

/-- Section 3.8 item 6: a block extracted to a register and stored from there is what the memory destination
stores. -/
def Obligations.ExtractThenStoreEqualsDirectStore : Prop :=
  ∀ (src d : VReg) (imm : Byte) (m : MemOperand) (s : State), s.Ready .f3 →
    s.StoreReady (storeAddress s .f3 m) 16 →
    ∃ t u, exec (.vextracti32x4V512 (.reg d) src imm ⟨0, false⟩) s = .next t ∧
      exec (.vextracti32x4V512 (.mem m) src imm ⟨0, false⟩) s = .next u ∧
      ∀ a, Memory.read u.mem a =
        Memory.read (Memory.writeLE s.mem (storeAddress s .f3 m).toNat 16 (t.getXmm d)) a

/-- Rules R130 to R135: the value of each intrinsic is the low part of the destination register after its
instruction, with `s` in the destination and `k` the low eight bits of the writemask register. -/
def Obligations.IntrinsicsReturnTheDestinationsLowPart : Prop :=
  ∀ (i : Intrinsic) (d src : VReg) (k : KReg) (n : Byte) (s : State), k ≠ 0 → s.Ready i.form →
    ∃ t, exec (.ofForm i.form (.reg d) src n
        (match i.flavour with | .plain => ⟨0, false⟩ | .mask => ⟨k, false⟩ | .maskz => ⟨k, true⟩)) s = .next t ∧
      (t.getZmm d).extractLsb' 0 (extractWidth i.form) =
        intrinsicResult i ((s.getZmm d).extractLsb' 0 _) ((s.getK k).extractLsb' 0 8)
          ((s.getZmm src).extractLsb' 0 _) n

/-- Rule R135: the elements of an intrinsic's value, by its flavour. -/
def Obligations.IntrinsicElementsFollowTheirFlavour : Prop :=
  ∀ (i : Intrinsic) (s : BitVec (extractWidth i.form)) (k : BitVec 8) (a : BitVec (vectorLength i.form))
    (n : Byte) (j : Nat), j < elementCount i.form →
    let e := elementWidth i.form
    (intrinsicResult i s k a n).extractLsb' (j * e) e =
      match i.flavour with
      | .plain => (selectBlock i.form a n).extractLsb' (j * e) e
      | .mask => if k.getLsbD j then (selectBlock i.form a n).extractLsb' (j * e) e else s.extractLsb' (j * e) e
      | .maskz => if k.getLsbD j then (selectBlock i.form a n).extractLsb' (j * e) e else 0

/-- Rule R80: a writemask mark is written exactly when `aaa` is not 000, a zeroing mark exactly when `z` is
set, and, for a well-formed instruction, only after a register destination with a writemask. -/
def Obligations.AssemblyMarksFollowTheWritemask : Prop :=
  ∀ i : Instr, ((assembly i).k = none ↔ i.writemask.aaa = 0) ∧
    ((assembly i).z = true ↔ i.writemask.z = true) ∧
    (i.wf = true → (assembly i).z = true →
      (assembly i).k ≠ none ∧ ∃ w r, (assembly i).dst = .reg w r)

/-- Rule R29: where CPUID enumerates the feature flags. -/
def Obligations.CpuidEnumeratesTheFeatureFlags : Prop :=
  ∀ ebx : BitVec 32, Features.ofCpuid ebx =
    { avx2 := ebx.getLsbD 5, avx512f := ebx.getLsbD 16, avx512dq := ebx.getLsbD 17, avx512vl := ebx.getLsbD 31 }
end

