-- ==== Sys2Proof/Laws/Decode.lean ====
section
/-! SUPPORT. Decode: what the reading of an instruction's bytes does with the bytes that follow it. -/

namespace Sys2Proof

/-! ### Bytes that follow are left over -/

theorem takeDisp32_append {l r m : List Byte} {d : BitVec 32} (h : takeDisp32 l = some (d, r)) :
    takeDisp32 (l ++ m) = some (d, r ++ m) := by
  match l with
  | b0 :: b1 :: b2 :: b3 :: l => simp only [takeDisp32, Option.some.injEq, Prod.mk.injEq] at h; simp [takeDisp32, ← h.1, h.2]
  | [] | [_] | [_, _] | [_, _, _] => simp [takeDisp32] at h

theorem takeDisp_append {mod : BitVec 2} {l r m : List Byte} {d : Disp} (h : takeDisp mod l = some (d, r)) :
    takeDisp mod (l ++ m) = some (d, r ++ m) := by
  unfold takeDisp at h ⊢
  split
  · rename_i hm; rw [if_pos hm] at h
    match l with
    | [] => simp at h
    | b :: l => simp only [Option.some.injEq, Prod.mk.injEq] at h; simp [h.1, h.2]
  · rename_i hm; rw [if_neg hm] at h
    split
    · rename_i h2; rw [if_pos h2] at h
      simp only [Option.map_eq_some_iff, Prod.exists, Prod.mk.injEq] at h
      obtain ⟨d', r', h1, rfl, rfl⟩ := h
      simp [takeDisp32_append h1]
    · rename_i h2; rw [if_neg h2] at h
      simp only [Option.some.injEq, Prod.mk.injEq] at h
      simp [h.1, h.2]

theorem takeSib_append {mod : BitVec 2} {x b : BitVec 1} {l r m : List Byte} {o : MemOperand}
    (h : takeSib mod x b l = some (o, r)) : takeSib mod x b (l ++ m) = some (o, r ++ m) := by
  match l with
  | [] => simp [takeSib] at h
  | sib :: l =>
    simp only [takeSib, List.cons_append] at h ⊢
    split
    · rename_i hm; rw [if_pos hm] at h
      simp only [Option.map_eq_some_iff, Prod.exists, Prod.mk.injEq] at h
      obtain ⟨d', r', h1, rfl, rfl⟩ := h
      simp [takeDisp32_append h1]
    · rename_i hm; rw [if_neg hm] at h
      simp only [Option.map_eq_some_iff, Prod.exists, Prod.mk.injEq] at h
      obtain ⟨d', r', h1, rfl, rfl⟩ := h
      simp [takeDisp_append h1]

theorem takeMem_append {mod : BitVec 2} {rm : BitVec 3} {x b : BitVec 1} {l r m : List Byte} {o : MemOperand}
    (h : takeMem mod rm x b l = some (o, r)) : takeMem mod rm x b (l ++ m) = some (o, r ++ m) := by
  unfold takeMem at h ⊢
  split
  · rename_i h1; rw [if_pos h1] at h; exact takeSib_append h
  · rename_i h1; rw [if_neg h1] at h
    split
    · rename_i hm; rw [if_pos hm] at h
      simp only [Option.map_eq_some_iff, Prod.exists, Prod.mk.injEq] at h
      obtain ⟨d', r', h1, rfl, rfl⟩ := h
      simp [takeDisp32_append h1]
    · rename_i hm; rw [if_neg hm] at h
      simp only [Option.map_eq_some_iff, Prod.exists, Prod.mk.injEq] at h
      obtain ⟨d', r', h1, rfl, rfl⟩ := h
      simp [takeDisp_append h1]

theorem takeOperand_append {mod : BitVec 2} {rm : BitVec 3} {x4 x b : BitVec 1} {l r m : List Byte} {o : Operand}
    (h : takeOperand mod rm x4 x b l = some (o, r)) : takeOperand mod rm x4 x b (l ++ m) = some (o, r ++ m) := by
  unfold takeOperand at h ⊢
  split
  · rename_i hm; rw [if_pos hm] at h
    simp only [Option.some.injEq, Prod.mk.injEq] at h
    simp [h.1, h.2]
  · rename_i hm; rw [if_neg hm] at h
    simp only [Option.map_eq_some_iff, Prod.exists, Prod.mk.injEq] at h
    obtain ⟨d', r', h1, rfl, rfl⟩ := h
    simp [takeMem_append h1]

/-- The tail of an instruction is read the same whatever bytes follow it, and they are left over. -/
theorem takeTail_append {x4 x b : BitVec 1} {l m : List Byte} {t : Tail} (h : takeTail x4 x b l = some t) :
    takeTail x4 x b (l ++ m) = some { t with rest := t.rest ++ m } := by
  match l with
  | [] => simp [takeTail] at h
  | modrm :: l =>
    simp only [takeTail, List.cons_append] at h ⊢
    split at h
    · rename_i dst imm rest ho
      injection h with h
      subst h
      rw [takeOperand_append ho]
      rfl
    · cases h

/-! ### Which registers the prefix names does not change how many bytes are read -/

theorem takeOperand_rest (mod : BitVec 2) (rm : BitVec 3) (x4 x b x4' x' b' : BitVec 1) (l : List Byte) :
    (takeOperand mod rm x4 x b l).map (·.2) = (takeOperand mod rm x4' x' b' l).map (·.2) := by
  unfold takeOperand takeMem takeSib
  split
  · rfl
  · split
    · cases l with
      | nil => rfl
      | cons => dsimp only; split <;> simp [Function.comp_def]
    · split <;> simp [Function.comp_def]

theorem takeTail_rest (x4 x b x4' x' b' : BitVec 1) (l : List Byte) :
    (takeTail x4 x b l).map (·.rest) = (takeTail x4' x' b' l).map (·.rest) := by
  cases l with
  | nil => rfl
  | cons modrm l =>
    have h := takeOperand_rest (modrm.extractLsb' 6 2) (modrm.extractLsb' 0 3) x4 x b x4' x' b' l
    simp only [takeTail]
    rcases h1 : takeOperand (modrm.extractLsb' 6 2) (modrm.extractLsb' 0 3) x4 x b l with _ | ⟨d, _ | ⟨i, r⟩⟩ <;>
      rcases h2 : takeOperand (modrm.extractLsb' 6 2) (modrm.extractLsb' 0 3) x4' x' b' l with _ | ⟨d', _ | ⟨i', r'⟩⟩ <;>
      simp_all

/-! ### No more than the longest instruction is read -/

theorem takeDisp32_length {l r : List Byte} {d : BitVec 32} (h : takeDisp32 l = some (d, r)) :
    l.length = r.length + 4 := by
  match l with
  | b0 :: b1 :: b2 :: b3 :: l => simp only [takeDisp32, Option.some.injEq, Prod.mk.injEq] at h; simp [h.2]
  | [] | [_] | [_, _] | [_, _, _] => simp [takeDisp32] at h

theorem takeDisp_length {mod : BitVec 2} {l r : List Byte} {d : Disp} (h : takeDisp mod l = some (d, r)) :
    l.length ≤ r.length + 4 := by
  unfold takeDisp at h
  split at h
  · split at h
    · simp only [Option.some.injEq, Prod.mk.injEq] at h; simp [← h.2]
    · cases h
  · split at h
    · simp only [Option.map_eq_some_iff, Prod.exists, Prod.mk.injEq] at h
      obtain ⟨d', r', h1, rfl, rfl⟩ := h
      have := takeDisp32_length h1; omega
    · simp only [Option.some.injEq, Prod.mk.injEq] at h; simp [h.2]

theorem takeOperand_length {mod : BitVec 2} {rm : BitVec 3} {x4 x b : BitVec 1} {l r : List Byte} {o : Operand}
    (h : takeOperand mod rm x4 x b l = some (o, r)) : l.length ≤ r.length + 5 := by
  unfold takeOperand takeMem at h
  split at h
  · simp only [Option.some.injEq, Prod.mk.injEq] at h; simp [h.2]
  · simp only [Option.map_eq_some_iff, Prod.exists, Prod.mk.injEq] at h
    obtain ⟨o', r', h, -, rfl⟩ := h
    split at h
    · match l with
      | [] => simp [takeSib] at h
      | sib :: l =>
        simp only [takeSib] at h
        split at h <;> simp only [Option.map_eq_some_iff, Prod.exists, Prod.mk.injEq] at h <;>
          obtain ⟨d', r', h1, -, rfl⟩ := h
        · have := takeDisp32_length h1; simp; omega
        · have := takeDisp_length h1; simp; omega
    · split at h <;> simp only [Option.map_eq_some_iff, Prod.exists, Prod.mk.injEq] at h <;>
        obtain ⟨d', r', h1, -, rfl⟩ := h
      · have := takeDisp32_length h1; omega
      · have := takeDisp_length h1; omega

theorem takeTail_length {x4 x b : BitVec 1} {l : List Byte} {t : Tail} (h : takeTail x4 x b l = some t) :
    l.length ≤ t.rest.length + 7 := by
  match l with
  | [] => simp [takeTail] at h
  | modrm :: l =>
    simp only [takeTail] at h
    split at h
    · rename_i dst imm rest ho
      injection h with h
      subst h
      have := takeOperand_length ho
      simp at this ⊢
      omega
    · cases h

/-- A whole instruction is at most as long as the longest (rule R60). -/
theorem wholeInstruction_length {bytes : List Byte} (h : Machine.WholeInstruction bytes) :
    bytes.length ≤ maxLength := by
  have key : ∀ tail, Machine.CompletesInstruction tail → tail.length ≤ 7 := fun tail hc => by
    obtain ⟨t, h1, h2⟩ := Option.map_eq_some_iff.mp hc
    have := takeTail_length h1
    simpa [h2] using this
  cases h with
  | vex b1 b2 tail _ _ hc => have := key tail hc; simp [maxLength]; omega
  | evex p0 p1 p2 op tail _ _ _ hc => have := key tail hc; simp [maxLength]; omega

/-! ### A tail that completes an instruction -/

theorem takeTail_of_completes {tail : List Byte} (h : Machine.CompletesInstruction tail) (x4 x b : BitVec 1)
    (m : List Byte) : ∃ t, takeTail x4 x b (tail ++ m) = some t ∧ t.rest = m := by
  have h := (takeTail_rest x4 x b 0 0 0 tail).trans h
  obtain ⟨t, h1, h2⟩ := Option.map_eq_some_iff.mp h
  exact ⟨_, takeTail_append h1, by simp [h2]⟩

/-- No strict beginning of a tail that completes an instruction does so too. -/
theorem takeTail_of_strict_prefix {l m : List Byte} (hm : m ≠ []) (h : Machine.CompletesInstruction (l ++ m))
    (x4 x b : BitVec 1) : takeTail x4 x b l = none := by
  cases h1 : takeTail x4 x b l with
  | none => rfl
  | some t =>
    have h2 := (takeTail_rest x4 x b 0 0 0 (l ++ m)).trans h
    rw [takeTail_append h1] at h2
    simp [hm] at h2

/-- A whole instruction that is cut short is refused as truncated (rules R75 and R176). -/
theorem decode_of_strict_prefix {bytes : List Byte} (h : Machine.WholeInstruction bytes) {k : Nat}
    (hk : k < bytes.length) : decode (bytes.take k) = .refused .truncated := by
  cases h with
  | vex b1 b2 tail hmap hpp hc =>
    match k with
    | 0 | 1 | 2 | 3 => simp [decode, decodeVex]
    | k + 4 =>
      have hk : k < tail.length := by simpa using hk
      have ht : tail.take k ++ tail.drop k = tail := List.take_append_drop k tail
      have hn : tail.drop k ≠ [] := by simp only [ne_eq, List.drop_eq_nil_iff]; omega
      rw [← ht] at hc
      simp [decode, decodeVex, hmap, hpp, takeTail_of_strict_prefix hn hc]
  | evex p0 p1 p2 op tail hmap hpp hop hc =>
    match k with
    | 0 | 1 | 2 | 3 | 4 => simp [decode, decodeEvex]
    | k + 5 =>
      have hk : k < tail.length := by simpa using hk
      have ht : tail.take k ++ tail.drop k = tail := List.take_append_drop k tail
      have hn : tail.drop k ≠ [] := by simp only [ne_eq, List.drop_eq_nil_iff]; omega
      rw [← ht] at hc
      simp only [List.take_succ_cons, decode, decodeEvex, hmap, hpp, hop, takeTail_of_strict_prefix hn hc]
      simp

end Sys2Proof
end

