-- ==== Sys2Proof/Laws/Memory.lean ====
section
/-! SUPPORT. Memory: read after write, and that every memory operation keeps the canonical form. -/

namespace Sys2Proof.Machine

theorem Memory.read_write (m : Memory) (x : Nat) (v : Byte) (y : Nat) :
    (m.write x v).read y = if y = x then some v else m.read y := by
  induction m with
  | nil => simp only [Memory.write, Memory.read, eq_comm]
  | cons c m ih =>
    obtain ⟨a, b⟩ := c
    simp only [Memory.write]
    split
    · simp only [Memory.read, eq_comm]
    · split
      · rename_i _ h; subst h
        simp only [Memory.read, eq_comm]
        split <;> simp_all
      · rename_i h1 h2
        simp only [Memory.read, ih]
        split <;> split <;> simp_all

theorem Memory.mem_write {m : Memory} {x : Nat} {v : Byte} {e : Host.Cell} (he : e ∈ m.write x v) :
    e = (x, v) ∨ e ∈ m := by
  induction m with
  | nil => simpa [Memory.write] using he
  | cons d m ih =>
    obtain ⟨a, b⟩ := d
    simp only [Memory.write] at he
    split at he
    · simpa using he
    · split at he
      · rcases List.mem_cons.mp he with h | h <;> simp [h]
      · rcases List.mem_cons.mp he with h | h
        · simp [h]
        · rcases ih h with h | h <;> simp [h]

theorem Memory.wf_write {m : Memory} (x : Nat) (v : Byte) (hm : m.wf) (hx : x < Config.spaceSize) :
    (m.write x v).wf := by
  induction m with
  | nil => simpa [Memory.write, Memory.wf] using hx
  | cons c m ih =>
    obtain ⟨a, b⟩ := c
    obtain ⟨hs, hb⟩ := hm
    rw [List.pairwise_cons] at hs
    simp only [List.mem_cons, forall_eq_or_imp] at hb
    have ih := ih ⟨hs.2, hb.2⟩
    have hmem := fun e => Memory.mem_write (m := m) (x := x) (v := v) (e := e)
    simp only [Memory.write]
    split
    · rename_i h
      refine ⟨List.pairwise_cons.mpr ⟨?_, List.pairwise_cons.mpr hs⟩, ?_⟩
      · simp only [List.mem_cons, forall_eq_or_imp]
        exact ⟨h, fun e he => lt_trans h (hs.1 e he)⟩
      · simp only [List.mem_cons, forall_eq_or_imp]; exact ⟨hx, hb⟩
    · split
      · rename_i _ h; subst h
        refine ⟨List.pairwise_cons.mpr hs, ?_⟩
        simp only [List.mem_cons, forall_eq_or_imp]; exact hb
      · rename_i h1 h2
        refine ⟨List.pairwise_cons.mpr ⟨?_, ih.1⟩, ?_⟩
        · intro e he
          rcases hmem e he with h | h
          · subst h; dsimp only; omega
          · exact hs.1 e h
        · simp only [List.mem_cons, forall_eq_or_imp]; exact ⟨hb.1, ih.2⟩

theorem Memory.read_writeBytes (m : Memory) (a : Nat) (bs : List Byte) (y : Nat) :
    (m.writeBytes a bs).read y = if h : a ≤ y ∧ y < a + bs.length then some bs[y - a] else m.read y := by
  induction bs generalizing m a with
  | nil => simp only [Memory.writeBytes, List.length_nil]; rw [dif_neg (by omega)]
  | cons b bs ih =>
    simp only [Memory.writeBytes, ih, Memory.read_write, List.length_cons]
    by_cases h : a + 1 ≤ y ∧ y < a + 1 + bs.length
    · rw [dif_pos h, dif_pos (by omega)]
      have : y - a = (y - (a + 1)) + 1 := by omega
      simp [this]
    · rw [dif_neg h]
      by_cases hy : y = a
      · subst hy; simp
      · rw [if_neg hy, dif_neg (by omega)]

theorem Memory.wf_writeBytes {m : Memory} (a : Nat) (bs : List Byte) (hm : m.wf)
    (ha : a + bs.length ≤ Config.spaceSize) : (m.writeBytes a bs).wf := by
  induction bs generalizing m a with
  | nil => exact hm
  | cons b bs ih =>
    simp only [List.length_cons] at ha
    exact ih _ (Memory.wf_write _ _ hm (by omega)) (by omega)

@[simp] theorem littleEndian_length {w : Nat} (n : Nat) (v : BitVec w) : (littleEndian n v).length = n := by
  simp [littleEndian]

theorem littleEndian_getElem {w : Nat} (n : Nat) (v : BitVec w) (q : Nat) (h : q < (littleEndian n v).length) :
    (littleEndian n v)[q] = v.extractLsb' (8 * q) 8 := by
  simp [littleEndian]

/-- A little-endian write puts `v[8q+7:8q]` at byte `q` and leaves every other byte alone. -/
theorem Memory.read_writeLE {w : Nat} (m : Memory) (a n : Nat) (v : BitVec w) (y : Nat) :
    (m.writeLE a n v).read y = if a ≤ y ∧ y < a + n then some (v.extractLsb' (8 * (y - a)) 8) else m.read y := by
  simp only [Memory.writeLE, Memory.read_writeBytes, littleEndian_length, littleEndian_getElem]
  split <;> rfl

theorem Memory.wf_writeLE {w : Nat} {m : Memory} (a n : Nat) (v : BitVec w) (hm : m.wf)
    (ha : a + n ≤ Config.spaceSize) : (m.writeLE a n v).wf :=
  Memory.wf_writeBytes _ _ hm (by simpa using ha)

end Sys2Proof.Machine
end

