-- ==== Sys2Proof/Laws/State.lean ====
section
/-! SUPPORT. State: the small lemmas of the state's updates and reads, each true by `rfl` or by the register file's own
lemmas. -/

namespace Sys2Proof.Machine

/-! ### Fields after an update -/

@[simp] theorem setZmm_zmm (s : State) (r : VReg) (v : Zmm) : (s.setZmm r v).zmm = s.zmm.set r.toNat v r.isLt := rfl
@[simp] theorem setZmm_k (s : State) (r : VReg) (v : Zmm) : (s.setZmm r v).k = s.k := rfl
@[simp] theorem setZmm_gpr (s : State) (r : VReg) (v : Zmm) : (s.setZmm r v).gpr = s.gpr := rfl
@[simp] theorem setZmm_pc (s : State) (r : VReg) (v : Zmm) : (s.setZmm r v).pc = s.pc := rfl
@[simp] theorem setZmm_rflags (s : State) (r : VReg) (v : Zmm) : (s.setZmm r v).rflags = s.rflags := rfl
@[simp] theorem setZmm_mxcsr (s : State) (r : VReg) (v : Zmm) : (s.setZmm r v).mxcsr = s.mxcsr := rfl
@[simp] theorem setZmm_cr0 (s : State) (r : VReg) (v : Zmm) : (s.setZmm r v).cr0 = s.cr0 := rfl
@[simp] theorem setZmm_cr4 (s : State) (r : VReg) (v : Zmm) : (s.setZmm r v).cr4 = s.cr4 := rfl
@[simp] theorem setZmm_xcr0 (s : State) (r : VReg) (v : Zmm) : (s.setZmm r v).xcr0 = s.xcr0 := rfl
@[simp] theorem setZmm_cpl (s : State) (r : VReg) (v : Zmm) : (s.setZmm r v).cpl = s.cpl := rfl
@[simp] theorem setZmm_mode (s : State) (r : VReg) (v : Zmm) : (s.setZmm r v).mode = s.mode := rfl
@[simp] theorem setZmm_feat (s : State) (r : VReg) (v : Zmm) : (s.setZmm r v).feat = s.feat := rfl
@[simp] theorem setZmm_regions (s : State) (r : VReg) (v : Zmm) : (s.setZmm r v).regions = s.regions := rfl
@[simp] theorem setZmm_text (s : State) (r : VReg) (v : Zmm) : (s.setZmm r v).text = s.text := rfl
@[simp] theorem setZmm_mem (s : State) (r : VReg) (v : Zmm) : (s.setZmm r v).mem = s.mem := rfl

@[simp] theorem setPc_zmm (s : State) (a : Word) : (s.setPc a).zmm = s.zmm := rfl
@[simp] theorem setPc_k (s : State) (a : Word) : (s.setPc a).k = s.k := rfl
@[simp] theorem setPc_gpr (s : State) (a : Word) : (s.setPc a).gpr = s.gpr := rfl
@[simp] theorem setPc_pc (s : State) (a : Word) : (s.setPc a).pc = a := rfl
@[simp] theorem setPc_rflags (s : State) (a : Word) : (s.setPc a).rflags = s.rflags := rfl
@[simp] theorem setPc_mxcsr (s : State) (a : Word) : (s.setPc a).mxcsr = s.mxcsr := rfl
@[simp] theorem setPc_cr0 (s : State) (a : Word) : (s.setPc a).cr0 = s.cr0 := rfl
@[simp] theorem setPc_cr4 (s : State) (a : Word) : (s.setPc a).cr4 = s.cr4 := rfl
@[simp] theorem setPc_xcr0 (s : State) (a : Word) : (s.setPc a).xcr0 = s.xcr0 := rfl
@[simp] theorem setPc_cpl (s : State) (a : Word) : (s.setPc a).cpl = s.cpl := rfl
@[simp] theorem setPc_mode (s : State) (a : Word) : (s.setPc a).mode = s.mode := rfl
@[simp] theorem setPc_feat (s : State) (a : Word) : (s.setPc a).feat = s.feat := rfl
@[simp] theorem setPc_regions (s : State) (a : Word) : (s.setPc a).regions = s.regions := rfl
@[simp] theorem setPc_text (s : State) (a : Word) : (s.setPc a).text = s.text := rfl
@[simp] theorem setPc_mem (s : State) (a : Word) : (s.setPc a).mem = s.mem := rfl

@[simp] theorem loadText_zmm (s : State) (bs : List Byte) : (s.loadText bs).zmm = s.zmm := rfl
@[simp] theorem loadText_k (s : State) (bs : List Byte) : (s.loadText bs).k = s.k := rfl
@[simp] theorem loadText_gpr (s : State) (bs : List Byte) : (s.loadText bs).gpr = s.gpr := rfl
@[simp] theorem loadText_pc (s : State) (bs : List Byte) : (s.loadText bs).pc = s.pc := rfl
@[simp] theorem loadText_rflags (s : State) (bs : List Byte) : (s.loadText bs).rflags = s.rflags := rfl
@[simp] theorem loadText_mxcsr (s : State) (bs : List Byte) : (s.loadText bs).mxcsr = s.mxcsr := rfl
@[simp] theorem loadText_cr0 (s : State) (bs : List Byte) : (s.loadText bs).cr0 = s.cr0 := rfl
@[simp] theorem loadText_cr4 (s : State) (bs : List Byte) : (s.loadText bs).cr4 = s.cr4 := rfl
@[simp] theorem loadText_xcr0 (s : State) (bs : List Byte) : (s.loadText bs).xcr0 = s.xcr0 := rfl
@[simp] theorem loadText_cpl (s : State) (bs : List Byte) : (s.loadText bs).cpl = s.cpl := rfl
@[simp] theorem loadText_mode (s : State) (bs : List Byte) : (s.loadText bs).mode = s.mode := rfl
@[simp] theorem loadText_feat (s : State) (bs : List Byte) : (s.loadText bs).feat = s.feat := rfl
@[simp] theorem loadText_regions (s : State) (bs : List Byte) : (s.loadText bs).regions = ⟨s.pc.toNat, bs.length, false, true⟩ :: s.regions := rfl
@[simp] theorem loadText_text (s : State) (bs : List Byte) : (s.loadText bs).text = ⟨s.pc, bs.length⟩ := rfl
@[simp] theorem loadText_mem (s : State) (bs : List Byte) : (s.loadText bs).mem = Memory.writeBytes s.mem s.pc.toNat bs := rfl

/-! ### Registers after an update -/

@[simp] theorem getZmm_setZmm_same (s : State) (r : VReg) (v : Zmm) : (s.setZmm r v).getZmm r = v := by
  simp [State.getZmm]

theorem getZmm_setZmm_ne (s : State) {r q : VReg} (v : Zmm) (h : q ≠ r) : (s.setZmm r v).getZmm q = s.getZmm q := by
  have : r.toNat ≠ q.toNat := fun e => h (BitVec.eq_of_toNat_eq e.symm)
  simp [State.getZmm, Vector.getElem_set_ne _ _ this]

@[simp] theorem getZmm_setPc (s : State) (a : Word) (r : VReg) : (s.setPc a).getZmm r = s.getZmm r := rfl
@[simp] theorem getK_setZmm (s : State) (r : VReg) (v : Zmm) (k : KReg) : (s.setZmm r v).getK k = s.getK k := rfl
@[simp] theorem getK_setPc (s : State) (a : Word) (k : KReg) : (s.setPc a).getK k = s.getK k := rfl
@[simp] theorem getGpr_setZmm (s : State) (r : VReg) (v : Zmm) (g : GReg) : (s.setZmm r v).getGpr g = s.getGpr g := rfl
@[simp] theorem getGpr_setPc (s : State) (a : Word) (g : GReg) : (s.setPc a).getGpr g = s.getGpr g := rfl

/-- A state is determined by what an instruction may change, when the rest is as before. -/
theorem setZmm_setPc_eq (s : State) (d : VReg) (v : Zmm) (a : Word) :
    (s.setZmm d v).setPc a = { s with zmm := s.zmm.set d.toNat v d.isLt, pc := a } := rfl

end Sys2Proof.Machine
end

