-- ==== Sys2Proof/Laws/Masking.lean ====
section
/-! SUPPORT. Masking: what the writemask loops of rules R104 and R106 do, bit by bit, element by element and byte by byte. -/

namespace Sys2Proof.Machine

theorem elementInPlace_getLsbD {w : Nat} (e j : Nat) (v : BitVec w) (b : Nat) :
    (elementInPlace e j v).getLsbD b = (decide (j * e ≤ b) && decide (b < j * e + e) && v.getLsbD b) := by
  simp only [elementInPlace, BitVec.getLsbD_shiftLeft, BitVec.getLsbD_setWidth, BitVec.getLsbD_extractLsb']
  by_cases hw : b < w
  · by_cases h : j * e ≤ b
    · have h3 : j * e + (b - j * e) = b := by omega
      have h4 : ¬ b < j * e := by omega
      have h5 : decide (b - j * e < e) = decide (b < j * e + e) := by
        rw [decide_eq_decide]; omega
      have h6 : b - j * e < w := by omega
      simp [hw, h, h3, h4, h5, h6]
    · have h4 : b < j * e := by omega
      simp [h, h4]
  · simp [hw, BitVec.getLsbD_of_ge v b (by omega)]

/-- Bit `b` of the blend of the first `n` elements: it follows the enable of element `b / e`, and is 0 from
element `n` on. -/
theorem blend_getLsbD {w : Nat} {e : Nat} (he : 0 < e) (en : Nat → Bool) (z : Bool) (tmp old : BitVec w)
    (n b : Nat) :
    (blend e en z tmp old n).getLsbD b
      = (decide (b < n * e) && (if en (b / e) then tmp.getLsbD b else !z && old.getLsbD b)) := by
  induction n with
  | zero => simp [blend]
  | succ n ih =>
    have hdiv : n * e ≤ b → b < n * e + e → b / e = n := fun h1 h2 =>
      Nat.div_eq_of_lt_le h1 (by rw [Nat.succ_mul]; exact h2)
    have hlt : (n + 1) * e = n * e + e := Nat.succ_mul n e
    simp only [blend, BitVec.getLsbD_or, ih, hlt]
    by_cases h1 : n * e ≤ b
    · by_cases h2 : b < n * e + e
      · rw [hdiv h1 h2]
        cases en n <;> cases z <;> simp [elementInPlace_getLsbD, h1, h2]
      · cases en n <;> cases z <;> simp [elementInPlace_getLsbD, h2, show ¬ b < n * e by omega]
    · have h3 : b < n * e := by omega
      have h4 : b < n * e + e := by omega
      cases en n <;> cases z <;> simp [elementInPlace_getLsbD, h1, h3, h4]

/-- Element `j` of a blend: from `tmp` when enabled, else kept under merging and 0 under zeroing (rule R104). -/
theorem blend_element {w : Nat} {e : Nat} (en : Nat → Bool) (z : Bool) (tmp old : BitVec w)
    {n j : Nat} (hj : j < n) :
    (blend e en z tmp old n).extractLsb' (j * e) e
      = if en j then tmp.extractLsb' (j * e) e else if z then 0 else old.extractLsb' (j * e) e := by
  apply BitVec.eq_of_getLsbD_eq
  intro b hb
  have he : 0 < e := by omega
  have h1 : j * e + b < n * e := by
    calc j * e + b < j * e + e := by omega
      _ = (j + 1) * e := (Nat.succ_mul j e).symm
      _ ≤ n * e := Nat.mul_le_mul_right e hj
  have h2 : (j * e + b) / e = j :=
    Nat.div_eq_of_lt_le (by omega) (by rw [Nat.succ_mul]; omega)
  rw [BitVec.getLsbD_extractLsb', blend_getLsbD he, h2]
  cases en j <;> cases z <;> simp [h1, hb]

/-- A blend with every element enabled is `tmp`. -/
theorem blend_all {w : Nat} {e n : Nat} (he : 0 < e) (hw : w ≤ n * e) {en : Nat → Bool} (hen : ∀ j < n, en j = true)
    (z : Bool) (tmp old : BitVec w) : blend e en z tmp old n = tmp := by
  apply BitVec.eq_of_getLsbD_eq
  intro b hb
  have h1 : b < n * e := by omega
  rw [blend_getLsbD he, hen _ (Nat.div_lt_of_lt_mul (by rwa [Nat.mul_comm]))]
  simp [h1]

theorem enabled_of_aaa_zero (s : State) {wm : Writemask} (h : wm.aaa = 0) (j : Nat) : s.enabled wm j = true := by
  simp [State.enabled, h]

theorem enabled_iff (s : State) (wm : Writemask) (j : Nat) :
    s.enabled wm j = true ↔ wm.aaa = 0 ∨ (s.getK wm.aaa).getLsbD j = true := by
  simp [State.enabled]

/-- What the masked register write leaves in the destination (rules R104 and R105). -/
theorem writeRegMasked_getZmm {w : Nat} (s : State) (d : VReg) (tmp : BitVec w) (e n : Nat) (wm : Writemask) :
    (writeRegMasked s d tmp e n wm).getZmm d
      = (blend e (s.enabled wm) wm.z tmp ((s.getZmm d).extractLsb' 0 w) n).setWidth Config.maxVL := by
  simp [writeRegMasked]

/-- Byte `y` after the masked store of `n` elements of `c` bytes: the block's byte where its element is
enabled, else what it was (rules R44 and R106). -/
theorem read_writeElements {w : Nat} (m : Memory) (addr : Nat) {c : Nat} (hc : 0 < c) (en : Nat → Bool)
    (tmp : BitVec w) (n y : Nat) :
    (writeElements m addr (8 * c) en tmp n).read y
      = if addr ≤ y ∧ y < addr + n * c ∧ en ((y - addr) / c) = true
        then some (tmp.extractLsb' (8 * (y - addr)) 8) else m.read y := by
  induction n with
  | zero => simp only [writeElements]; rw [if_neg (by omega)]
  | succ n ih =>
    have hmul : n * (8 * c) / 8 = n * c := by
      rw [show n * (8 * c) = 8 * (n * c) by ring, Nat.mul_div_cancel_left _ (by norm_num)]
    have hc8 : 8 * c / 8 = c := Nat.mul_div_cancel_left _ (by norm_num)
    have hs : (n + 1) * c = n * c + c := Nat.succ_mul n c
    have hdiv : addr + n * c ≤ y → y < addr + n * c + c → (y - addr) / c = n := fun h1 h2 =>
      Nat.div_eq_of_lt_le (by omega) (by rw [Nat.succ_mul]; omega)
    simp only [writeElements, hmul, hc8, hs]
    by_cases hin : addr + n * c ≤ y ∧ y < addr + n * c + c
    · have hq := hdiv hin.1 hin.2
      cases hen : en n
      · simp only [Bool.false_eq_true, if_false, ih]
        rw [if_neg (by omega), if_neg (by rw [hq, hen]; simp)]
      · simp only [if_true, Memory.read_writeLE]
        rw [if_pos hin, if_pos ⟨by omega, by omega, by rw [hq, hen]⟩]
        have hbits : (tmp.extractLsb' (n * (8 * c)) (8 * c)).extractLsb' (8 * (y - (addr + n * c))) 8
            = tmp.extractLsb' (8 * (y - addr)) 8 := by
          apply BitVec.eq_of_getLsbD_eq
          intro b hb
          have h1 : n * (8 * c) = 8 * (n * c) := by ring
          have h2 : 8 * (y - (addr + n * c)) + b < 8 * c := by omega
          have h3 : 8 * (n * c) + (8 * (y - (addr + n * c)) + b) = 8 * (y - addr) + b := by omega
          simp [hb, h1, h2, h3]
        rw [hbits]
    · have hout : ((addr ≤ y ∧ y < addr + n * c ∧ en ((y - addr) / c) = true)
          ↔ (addr ≤ y ∧ y < addr + (n * c + c) ∧ en ((y - addr) / c) = true)) := by
        constructor
        · rintro ⟨a, b, c⟩; exact ⟨a, by omega, c⟩
        · rintro ⟨a, b, c⟩; exact ⟨a, by omega, c⟩
      cases hen : en n
      · simp only [Bool.false_eq_true, if_false, ih]
        simp only [hout]
      · simp only [if_true, Memory.read_writeLE]
        rw [if_neg hin, ih]
        simp only [hout]

theorem wf_writeElements {w : Nat} {m : Memory} (addr c : Nat) (en : Nat → Bool) (tmp : BitVec w) (n : Nat)
    (hm : m.wf) (ha : addr + n * c ≤ Config.spaceSize) : (writeElements m addr (8 * c) en tmp n).wf := by
  induction n with
  | zero => exact hm
  | succ n ih =>
    have hmul : n * (8 * c) / 8 = n * c := by
      rw [show n * (8 * c) = 8 * (n * c) by ring, Nat.mul_div_cancel_left _ (by norm_num)]
    have hc8 : 8 * c / 8 = c := Nat.mul_div_cancel_left _ (by norm_num)
    have hs : (n + 1) * c = n * c + c := Nat.succ_mul n c
    have ih := ih (by omega)
    simp only [writeElements, hmul, hc8]
    split
    · exact Memory.wf_writeLE _ _ _ ih (by omega)
    · exact ih

/-! ### Only the enables of the elements count -/

theorem blend_congr {w : Nat} (e : Nat) {en en' : Nat → Bool} (z : Bool) (tmp old : BitVec w) {n : Nat}
    (h : ∀ j < n, en j = en' j) : blend e en z tmp old n = blend e en' z tmp old n := by
  induction n with
  | zero => rfl
  | succ n ih => simp only [blend]; rw [ih fun j hj => h j (by omega), h n (by omega)]

theorem writeElements_congr {w : Nat} (m : Memory) (a e : Nat) {en en' : Nat → Bool} (tmp : BitVec w) {n : Nat}
    (h : ∀ j < n, en j = en' j) : writeElements m a e en tmp n = writeElements m a e en' tmp n := by
  induction n with
  | zero => rfl
  | succ n ih => simp only [writeElements]; rw [ih fun j hj => h j (by omega), h n (by omega)]

end Sys2Proof.Machine
end

