-- ==== Sys2Proof/Laws/Exec.lean ====
section
/-! SUPPORT. Exec: what each shared operation, and `exec` itself, can answer, said once. -/

namespace Sys2Proof.Machine

/-! ### The checks -/

theorem checked_ready {f : Form} {s : State} (go : Result) (h : s.Ready f) : checked f s go = go := by
  obtain ⟨h1, h2, h3⟩ := h
  simp [checked, h1, h2, h3]

theorem checked_next {f : Form} {s t : State} {go : Result} (h : checked f s go = .next t) :
    s.Ready f ∧ go = .next t := by
  unfold checked at h
  split at h
  · simp [raise] at h
  · simp [raise] at h
  · simp at h
  · rename_i hm
    split at h
    · rename_i hf
      split at h
      · simp [raise] at h
      · rename_i ht
        exact ⟨⟨hm, hf, by simpa using ht⟩, h⟩
    · simp [raise] at h

/-! ### Admission and the program text -/

/-- WHAT memAdmit SAYS: the footprint fits, and each of its bytes lies in a region of the kind (rules R48, R49). -/
theorem memAdmit_eq_true_iff {s : State} {addr n : Nat} {k : AccessKind} :
    s.memAdmit addr n k = true ↔
      addr + n ≤ Config.spaceSize ∧ ∀ q < n, ∃ r ∈ s.regions, r.admits k (addr + q) = true := by
  simp [State.memAdmit]

theorem memAdmit_fits {s : State} {addr n : Nat} {k : AccessKind} (h : s.memAdmit addr n k = true) :
    addr + n ≤ Config.spaceSize := (memAdmit_eq_true_iff.mp h).1

/-- WHAT overlaps SAYS: a footprint of at least one byte is clear of the text exactly when none of its addresses
holds text (rule R55). -/
theorem overlaps_eq_false_iff {t : ProgramText} {addr n : Nat} (hn : 0 < n) :
    t.overlaps addr n = false ↔ ∀ q < n, t.holds (addr + q) = false := by
  simp only [ProgramText.overlaps, ProgramText.holds, Bool.and_eq_false_iff, decide_eq_false_iff_not]
  constructor
  · intro h q hq; omega
  · intro h
    have h0 := h 0 hn
    have h1 := h (n - 1) (by omega)
    have h2 := h (t.base.toNat - addr)
    omega

/-- A footprint clear of the text shares no address with it (rule R55). -/
theorem not_holds_of_not_overlaps {t : ProgramText} {addr n a : Nat} (h : t.overlaps addr n = false)
    (h1 : addr ≤ a) (h2 : a < addr + n) : t.holds a = false := by
  have := (overlaps_eq_false_iff (by omega)).mp h (a - addr) (by omega)
  rwa [show addr + (a - addr) = a by omega] at this

/-! ### The store -/

theorem store_ready {s : State} {ea : Word} {n : Nat} (hn : 0 < n) (write : Memory → Memory) (next : Word)
    (h : s.StoreReady ea n) : store s ea n write next = .next { s with mem := write s.mem, pc := next } := by
  obtain ⟨h1, h2, h3⟩ := h
  have h1 := (overlaps_eq_false_iff hn).mpr h1
  have h2 := memAdmit_eq_true_iff.mpr h2
  simp [store, h1, h2, State.alignmentFaults, h3]

theorem store_next {s t : State} {ea : Word} {n : Nat} {write : Memory → Memory} {next : Word}
    (h : store s ea n write next = .next t) :
    s.text.overlaps ea.toNat n = false ∧ s.memAdmit ea.toNat n .write = true ∧
      t = { s with mem := write s.mem, pc := next } := by
  unfold store at h
  split at h
  · simp at h
  · rename_i h1
    split at h
    · simp [raise] at h
    · rename_i h2
      simp only [Bool.or_eq_true, Bool.not_eq_true', not_or, Bool.not_eq_false] at h2
      injection h with h
      exact ⟨by simpa using h1, h2.1, h.symm⟩

/-! ### The destination writes -/

/-- What an instruction of form `f` with destination `dst` can leave behind: one register and the pc, or bytes of
the footprint and the pc. -/
def DestinationWritten (f : Form) (dst : Operand) (s t : State) : Prop :=
  match dst with
  | .reg d => ∃ v, t = { s with zmm := s.zmm.set d.toNat v d.isLt, pc := nextPc s f dst }
  | .mem m =>
    s.text.overlaps (storeAddress s f m).toNat (extractWidth f / 8) = false ∧
    s.memAdmit (storeAddress s f m).toNat (extractWidth f / 8) .write = true ∧
    ∃ mem, t = { s with mem := mem, pc := nextPc s f dst } ∧ (s.mem.wf → mem.wf) ∧
      ∀ a, a < (storeAddress s f m).toNat ∨ (storeAddress s f m).toNat + extractWidth f / 8 ≤ a →
        Memory.read mem a = Memory.read s.mem a

theorem writeWhole_written {tmp : BitVec 128} {dst : Operand} {s t : State}
    (h : writeWhole tmp dst s = .next t) : DestinationWritten .f1 dst s t := by
  cases dst with
  | reg d => injection h with h; exact ⟨_, h.symm⟩
  | mem m =>
    simp only [writeWhole] at h
    obtain ⟨h1, h2, h3⟩ := store_next h
    have hw : extractWidth .f1 / 8 = 16 := rfl
    simp only [DestinationWritten, hw]
    refine ⟨h1, h2, _, h3, fun hm => Memory.wf_writeLE _ _ _ hm (memAdmit_fits h2), fun a ha => ?_⟩
    rw [Memory.read_writeLE, if_neg (by omega)]

theorem elementWidth_eq (f : Form) : ∃ c, 0 < c ∧ elementWidth f = 8 * c ∧
    elementCount f * c = extractWidth f / 8 := by
  cases f <;> first | exact ⟨4, by decide⟩ | exact ⟨8, by decide⟩ | exact ⟨16, by decide⟩

theorem writeMasked_written {f : Form} {w : Nat} {tmp : BitVec w} {dst : Operand}
    {wm : Writemask} {s t : State} (h : writeMasked f tmp dst wm s = .next t) : DestinationWritten f dst s t := by
  cases dst with
  | reg d => injection h with h; exact ⟨_, h.symm⟩
  | mem m =>
    simp only [writeMasked] at h
    obtain ⟨h1, h2, h3⟩ := store_next h
    obtain ⟨c, hc, he, hn⟩ := elementWidth_eq f
    rw [he] at h3
    refine ⟨h1, h2, _, h3, fun hm => wf_writeElements _ _ _ _ _ hm (by rw [hn]; exact memAdmit_fits h2), fun a ha => ?_⟩
    rw [read_writeElements _ _ hc, hn, if_neg (by omega)]

/-! ### exec -/

/-- WHAT exec CAN DO: when it answers a next state, the form's checks passed and only the destination and the
pc have changed (rules R109, R111, R114). -/
theorem exec_next {i : Instr} {s t : State} (h : exec i s = .next t) :
    s.Ready i.form ∧ DestinationWritten i.form i.dst s t := by
  cases i with
  | vextracti128 dst src imm =>
    obtain ⟨h1, h2⟩ := checked_next h; exact ⟨h1, writeWhole_written h2⟩
  | vextracti32x4V256 dst src imm wm =>
    obtain ⟨h1, h2⟩ := checked_next h; exact ⟨h1, writeMasked_written h2⟩
  | vextracti32x4V512 dst src imm wm =>
    obtain ⟨h1, h2⟩ := checked_next h; exact ⟨h1, writeMasked_written h2⟩
  | vextracti64x2V256 dst src imm wm =>
    obtain ⟨h1, h2⟩ := checked_next h; exact ⟨h1, writeMasked_written h2⟩
  | vextracti64x2V512 dst src imm wm =>
    obtain ⟨h1, h2⟩ := checked_next h; exact ⟨h1, writeMasked_written h2⟩
  | vextracti32x8 dst src imm wm =>
    obtain ⟨h1, h2⟩ := checked_next h; exact ⟨h1, writeMasked_written h2⟩
  | vextracti64x4 dst src imm wm =>
    obtain ⟨h1, h2⟩ := checked_next h; exact ⟨h1, writeMasked_written h2⟩

/-! ### step -/

/-- WHAT step CAN DO: a next state is that of the decoded instruction (rule R114). -/
theorem step_next {s t : State} (h : step s = .next t) :
    s.mode = .bits64 ∧ s.ended = false ∧ ∃ i rest, decode (fetchBytes s).1 = .insn i rest ∧ exec i s = .next t := by
  unfold step at h
  split at h
  · simp at h
  · rename_i h1
    split at h
    · simp at h
    · rename_i h2
      refine ⟨by simpa using h1, by simpa using h2, ?_⟩
      split at h
      · rename_i i rest hd; exact ⟨i, rest, hd, h⟩
      · simp [raise] at h
      · simp at h
      · unfold fetchFailure at h; split at h <;> simp [raise] at h

/-! ### The invariant at reset -/

theorem reset_memory_wf : State.reset.mem.wf := by decide

end Sys2Proof.Machine
end

