-- ==== Sys2Proof/Laws/Fetch.lean ====
section
/-! SUPPORT. Fetch: what the fetch reads, and how the step answers bytes that it reads only in part. -/

namespace Sys2Proof.Machine

/-- WHAT fetchByte CAN READ: a byte of the program text that is admitted and that memory holds (rules R75, R176). -/
theorem fetchByte_eq_ok_iff {s : State} {a : Nat} {b : Byte} : fetchByte s a = .ok b ↔ s.Fetchable a b := by
  have hm : s.memAdmit a 1 .fetch = true ↔ a < Config.spaceSize ∧ ∃ r ∈ s.regions, r.admits .fetch a = true := by
    rw [memAdmit_eq_true_iff, Nat.add_one_le_iff]; simp only [Nat.lt_one_iff, forall_eq, Nat.add_zero]
  unfold fetchByte State.Fetchable
  rw [← and_assoc (b := ∃ r ∈ s.regions, _), ← hm]
  by_cases h1 : s.text.holds a = true <;> by_cases h2 : s.memAdmit a 1 .fetch = true <;>
    cases h3 : Memory.read s.mem a <;> simp [h1, h2]

/-- The window starts with the bytes that can be fetched, and goes on behind them. -/
theorem fetchWindow_append {s : State} {bytes : List Byte} {a n : Nat}
    (h : ∀ q < bytes.length, s.Fetchable (a + q) (bytes.getD q 0)) :
    fetchWindow s (bytes.length + n) a =
      (bytes ++ (fetchWindow s n (a + bytes.length)).1, (fetchWindow s n (a + bytes.length)).2) := by
  induction bytes generalizing a with
  | nil => simp
  | cons b bytes ih =>
    have h0 : fetchByte s a = .ok b := fetchByte_eq_ok_iff.mpr (by simpa using h 0 (by simp))
    have ih := @ih (a + 1) fun q hq => by
      have := h (q + 1) (by simpa using hq)
      rw [show a + (q + 1) = a + 1 + q by omega] at this
      simpa using this
    rw [List.length_cons, show bytes.length + 1 + n = (bytes.length + n) + 1 by omega]
    simp only [fetchWindow, h0, ih, List.cons_append]
    rw [show a + 1 + bytes.length = a + (bytes.length + 1) by omega]

/-- WHAT fetchBytes READS where these bytes can be fetched from `pc` on: them first (rule R75). -/
theorem fetchBytes_prefix {s : State} {bytes : List Byte} (hn : bytes.length ≤ maxLength) (h : s.Fetches bytes) :
    ∃ more, (fetchBytes s).1 = bytes ++ more := by
  obtain ⟨n, hn⟩ := Nat.exists_eq_add_of_le hn
  exact ⟨_, by rw [fetchBytes, hn, fetchWindow_append h]⟩

/-- The fetch ends at the first byte that it cannot read, with the reason. -/
theorem fetchBytes_stop {s : State} {bytes : List Byte} {e : FetchStop} (hn : bytes.length < maxLength)
    (h : s.Fetches bytes) (he : fetchByte s (s.pc.toNat + bytes.length) = .error e) :
    fetchBytes s = (bytes, some e) := by
  obtain ⟨n, hn⟩ := Nat.exists_eq_add_of_lt hn
  rw [fetchBytes, hn, show bytes.length + n + 1 = bytes.length + (n + 1) by omega, fetchWindow_append h]
  simp [fetchWindow, he]

end Sys2Proof.Machine
end

