-- ==== Sys2Proof/Laws/PerInstr.lean ====
section
/-! SUPPORT. Laws.PerInstr: a statement made of every instruction, with one lemma per constructor. -/

namespace Sys2Proof.Laws

/-- The encoder writes as many bytes as the length rule says (rules R60 and R73). -/
def EncodeLength.Statement (i : Instr) : Prop := (encode i).length = i.length

theorem encodeTail_length (dst : Operand) (src : VReg) (imm : Byte) :
    (encodeTail dst.rmFields src imm).length = 2 + dst.tailLength := by
  rcases dst with d | ⟨_ | ⟨b, _ | _ | _⟩ | ⟨b, i, sc, _ | _ | _⟩ | _⟩ <;> rfl

theorem encodeVex_length (dst : Operand) (src : VReg) (imm : Byte) :
    (encodeVex dst src imm).length = encodedLength .f1 dst := by
  simp [encodeVex, encodeTail_length, encodedLength, Form.prefixLength]; omega

theorem encodeEvex_length (w : BitVec 1) (ll : BitVec 2) (op : Byte) (dst : Operand) (src : VReg) (imm : Byte)
    (wm : Writemask) (f : Form) (h : f.prefixLength = 4) :
    (encodeEvex w ll op dst src imm wm).length = encodedLength f dst := by
  simp [encodeEvex, encodeTail_length, encodedLength, h]; omega

theorem EncodeLength.vextracti128 (dst : Operand) (src : VReg) (imm : Byte) :
    EncodeLength.Statement (.vextracti128 dst src imm) := encodeVex_length dst src imm

theorem EncodeLength.vextracti32x4V256 (dst : Operand) (src : VReg) (imm : Byte) (wm : Writemask) :
    EncodeLength.Statement (.vextracti32x4V256 dst src imm wm) := encodeEvex_length _ _ _ dst src imm wm .f2 rfl

theorem EncodeLength.vextracti32x4V512 (dst : Operand) (src : VReg) (imm : Byte) (wm : Writemask) :
    EncodeLength.Statement (.vextracti32x4V512 dst src imm wm) := encodeEvex_length _ _ _ dst src imm wm .f3 rfl

theorem EncodeLength.vextracti64x2V256 (dst : Operand) (src : VReg) (imm : Byte) (wm : Writemask) :
    EncodeLength.Statement (.vextracti64x2V256 dst src imm wm) := encodeEvex_length _ _ _ dst src imm wm .f4 rfl

theorem EncodeLength.vextracti64x2V512 (dst : Operand) (src : VReg) (imm : Byte) (wm : Writemask) :
    EncodeLength.Statement (.vextracti64x2V512 dst src imm wm) := encodeEvex_length _ _ _ dst src imm wm .f5 rfl

theorem EncodeLength.vextracti32x8 (dst : Operand) (src : VReg) (imm : Byte) (wm : Writemask) :
    EncodeLength.Statement (.vextracti32x8 dst src imm wm) := encodeEvex_length _ _ _ dst src imm wm .f6 rfl

theorem EncodeLength.vextracti64x4 (dst : Operand) (src : VReg) (imm : Byte) (wm : Writemask) :
    EncodeLength.Statement (.vextracti64x4 dst src imm wm) := encodeEvex_length _ _ _ dst src imm wm .f7 rfl

end Sys2Proof.Laws
end

