-- ==== Sys2Proof/Tests/Slice0.lean ====
section
/-! SUPPORT. Tests.Slice0: the model's own tests. Expected values are the spec's (`95_test_vectors.md`, named at each
test) or the memory contents and registers set up here.

A theorem `test_witness_<Name>` shows a state and operands that meet all hypotheses of the statement of that
name together, one conjunct for each clause. -/

namespace Sys2Proof.Tests

set_option Elab.async false

open Sys2Proof.Machine

/-! ### Helpers -/

/-- The next state of an outcome. -/
def nextOf : Result → Option State
  | .next s => some s
  | _ => none

/-- The fault of an outcome. -/
def faultOf : Result → Option Fault
  | .fault f => some f
  | _ => none

/-- The refusal of an outcome. -/
def refusalOf : Result → Option Refusal
  | .refused r => some r
  | _ => none

/-- A register whose byte `q` is `b + q` (section 3.1). -/
def bytesFrom (b : Nat) : Zmm :=
  BitVec.ofNat 512 ((List.range 64).foldr (fun q acc => (b + q) % 256 + 256 * acc) 0)

/-- The standard test state of section 3.1 with a program at 1000H; of the old memory contents only the bytes
`q = 0 .. 7`, C0H + `q`, are placed. -/
def launch (code : List Byte) : State :=
  { State.reset with
    zmm := (State.reset.zmm.set 2 (bytesFrom 0)).set 1 (bytesFrom 0x80)
    k := #v[0, 0x5A, 0x0F, 0xA5, 0x00, 0xFF, 0x01, 0x80]
    gpr := State.reset.gpr.set 0 0x2000
    pc := 0x1000
    regions := [⟨0x2000, 0x60, true, false⟩]
    mem := Memory.writeBytes [] 0x2000 [0xC0, 0xC1, 0xC2, 0xC3, 0xC4, 0xC5, 0xC6, 0xC7] }.loadText code

/-- Register `d` and the pc after one step. -/
def regAfter (code : List Byte) (d : VReg) : Option (Zmm × Word) :=
  (nextOf (step (launch code))).map fun t => (t.getZmm d, t.pc)

/-- The `n` bytes at 2000H after one step. -/
def memAfter (code : List Byte) (n : Nat) : Option (List (Option Byte)) :=
  (nextOf (step (launch code))).map fun t => (List.range n).map fun q => Memory.read t.mem (0x2000 + q)

/-! ### WellFormed smoke: an ill-formed term for each check -/

/-- `rm = 100` without SIB announces SIB. -/
theorem test_wf_base_low_100 : (MemOperand.base 12 (.disp8 0)).wf = false := by decide
/-- `mod = 00`, `rm = 100`. -/
theorem test_wf_base_nodisp_low_100 : (MemOperand.base 4 .none).wf = false := by decide
/-- `mod = 00`, `rm = 101` is RIP-relative. -/
theorem test_wf_base_nodisp_low_101 : (MemOperand.base 13 .none).wf = false := by decide
/-- `mod = 00`, `base = 101` is no base. -/
theorem test_wf_sib_nodisp_low_101 : (MemOperand.sib 5 1 0 .none).wf = false := by decide
/-- Form F1 reaches registers 0 to 15 only (rule R22). -/
theorem test_wf_f1_destination : (Instr.vextracti128 (.reg 16) 2 1).wf = false := by decide
theorem test_wf_f1_source : (Instr.vextracti128 (.reg 1) 16 1).wf = false := by decide
/-- Zeroing without writemask (rule R77 g). -/
theorem test_wf_zeroing_without_mask : (Instr.vextracti32x4V512 (.reg 1) 2 3 ⟨0, true⟩).wf = false := by decide
/-- Zeroing of a memory destination (rule R77 h). -/
theorem test_wf_zeroing_memory : (Instr.vextracti64x4 (.mem (.ripRel 0)) 2 3 ⟨1, true⟩).wf = false := by decide

/-! ### Decoding: words written out from the spec's encoding -/

/-- E-1, form F1. -/
theorem test_decode_vextracti128 :
    decode [0xC4, 0b11100011, 0b01111101, 0x39, 0b11010001, 0x01] = .insn (.vextracti128 (.reg 1) 2 1) [] := by
  decide +kernel
/-- E-2, form F1 with SIB and an unscaled disp8. -/
theorem test_decode_vextracti128_sib :
    decode [0xC4, 0b01000011, 0b01111101, 0x39, 0b01111100, 0b10001100, 0x10, 0x01] =
      .insn (.vextracti128 (.mem (.sib 12 1 2 (.disp8 16))) 15 1) [] := by decide +kernel
/-- E-3, form F1, RIP-relative. -/
theorem test_decode_vextracti128_rip :
    decode [0xC4, 0b11100011, 0b01111101, 0x39, 0b00011101, 0x00, 0x01, 0x00, 0x00, 0x01] =
      .insn (.vextracti128 (.mem (.ripRel 0x100)) 3 1) [] := by decide +kernel
/-- E-9, form F2. -/
theorem test_decode_vextracti32x4V256 :
    decode [0x62, 0b11110011, 0b01111101, 0b00101000, 0x39, 0b11010001, 0x01] =
      .insn (.vextracti32x4V256 (.reg 1) 2 1 ⟨0, false⟩) [] := by decide +kernel
/-- E-4, form F3 with a zeroing mark. -/
theorem test_decode_vextracti32x4V512 :
    decode [0x62, 0b11110011, 0b01111101, 0b11001001, 0x39, 0b11010001, 0x03] =
      .insn (.vextracti32x4V512 (.reg 1) 2 3 ⟨1, true⟩) [] := by decide +kernel
/-- E-5, form F3 with registers 17 and 30. -/
theorem test_decode_high_registers :
    decode [0x62, 0b00100011, 0b01111101, 0b01001000, 0x39, 0b11110001, 0x02] =
      .insn (.vextracti32x4V512 (.reg 17) 30 2 ⟨0, false⟩) [] := by decide +kernel
/-- E-6, form F3: a displacement that cannot be scaled, as four bytes. -/
theorem test_decode_disp32 :
    decode [0x62, 0b11110011, 0b01111101, 0b01001001, 0x39, 0b10010000, 0x11, 0x00, 0x00, 0x00, 0x02] =
      .insn (.vextracti32x4V512 (.mem (.base 0 (.disp32 0x11))) 2 2 ⟨1, false⟩) [] := by decide +kernel
/-- E-9, form F4. -/
theorem test_decode_vextracti64x2V256 :
    decode [0x62, 0b11110011, 0b11111101, 0b00101000, 0x39, 0b11010001, 0x01] =
      .insn (.vextracti64x2V256 (.reg 1) 2 1 ⟨0, false⟩) [] := by decide +kernel
/-- E-9, form F5. -/
theorem test_decode_vextracti64x2V512 :
    decode [0x62, 0b11110011, 0b11111101, 0b01001000, 0x39, 0b11010001, 0x01] =
      .insn (.vextracti64x2V512 (.reg 1) 2 1 ⟨0, false⟩) [] := by decide +kernel
/-- E-9, form F6. -/
theorem test_decode_vextracti32x8 :
    decode [0x62, 0b11110011, 0b01111101, 0b01001000, 0x3B, 0b11010001, 0x01] =
      .insn (.vextracti32x8 (.reg 1) 2 1 ⟨0, false⟩) [] := by decide +kernel
/-- E-8, form F7. -/
theorem test_decode_vextracti64x4 :
    decode [0x62, 0b00110011, 0b11111101, 0b11001101, 0x3B, 0b11001100, 0x01] =
      .insn (.vextracti64x4 (.reg 20) 9 1 ⟨5, true⟩) [] := by decide +kernel
/-- E-7, form F7 with SIB and no index. -/
theorem test_decode_vextracti64x4_sib :
    decode [0x62, 0b01100011, 0b11111101, 0b01001000, 0x3B, 0b01111100, 0b00100100, 0x01, 0x01] =
      .insn (.vextracti64x4 (.mem (.sib 4 4 0 (.disp8 1))) 31 1 ⟨0, false⟩) [] := by decide +kernel

/-- X1 to X3: form F1 with VEX.L = 0, `vvvv` = 1110, VEX.W = 1. -/
theorem test_ud_vex :
    decode [0xC4, 0xE3, 0x79, 0x39, 0xD1, 0x01] = .ud ∧ decode [0xC4, 0xE3, 0x75, 0x39, 0xD1, 0x01] = .ud ∧
      decode [0xC4, 0xE3, 0xFD, 0x39, 0xD1, 0x01] = .ud := by decide +kernel
/-- X4 to X9: `vvvv`, L'L with either opcode. -/
theorem test_ud_evex_length :
    decode [0x62, 0xF3, 0x75, 0x48, 0x39, 0xD1, 0x03] = .ud ∧ decode [0x62, 0xF3, 0x7D, 0x08, 0x39, 0xD1, 0x03] = .ud ∧
      decode [0x62, 0xF3, 0x7D, 0x68, 0x39, 0xD1, 0x03] = .ud ∧ decode [0x62, 0xF3, 0x7D, 0x28, 0x3B, 0xD1, 0x01] = .ud ∧
      decode [0x62, 0xF3, 0xFD, 0x28, 0x3B, 0xD1, 0x01] = .ud ∧ decode [0x62, 0xF3, 0x7D, 0x08, 0x3B, 0xD1, 0x01] = .ud := by
  decide +kernel
/-- X10 to X14: b, V' and z. -/
theorem test_ud_evex_p2 :
    decode [0x62, 0xF3, 0x7D, 0x58, 0x39, 0xD1, 0x03] = .ud ∧ decode [0x62, 0xF3, 0x7D, 0x58, 0x39, 0x10, 0x03] = .ud ∧
      decode [0x62, 0xF3, 0x7D, 0x40, 0x39, 0xD1, 0x03] = .ud ∧ decode [0x62, 0xF3, 0x7D, 0xC8, 0x39, 0xD1, 0x03] = .ud ∧
      decode [0x62, 0xF3, 0x7D, 0xC9, 0x39, 0x10, 0x02] = .ud := by decide +kernel
/-- X15 to X17: the fixed bits of P0 and P1. -/
theorem test_ud_evex_fixed :
    decode [0x62, 0xF7, 0x7D, 0x48, 0x39, 0xD1, 0x03] = .ud ∧ decode [0x62, 0xFB, 0x7D, 0x48, 0x39, 0xD1, 0x03] = .ud ∧
      decode [0x62, 0xF3, 0x79, 0x48, 0x39, 0xD1, 0x03] = .ud := by decide +kernel
/-- X18 to X24: other opcodes. -/
theorem test_refused_other :
    ∀ b ∈ [[0xC4, 0xE3, 0x7C, 0x39, 0xD1, 0x01], [0x62, 0xF3, 0x7C, 0x48, 0x39, 0xD1, 0x03],
        [0x62, 0xF2, 0x7D, 0x48, 0x39, 0xD1, 0x03], [0xC4, 0xE3, 0x7D, 0x38, 0xD1, 0x01],
        [0x66, 0xC4, 0xE3, 0x7D, 0x39, 0xD1, 0x01], [0xC5, 0xFD, 0x39, 0xD1, 0x01], [0x90]],
      decode b = .refused .otherInstruction := by decide +kernel
/-- An instruction cut short. -/
theorem test_refused_truncated : decode [0xC4, 0xE3, 0x7D, 0x39, 0xD1] = .refused .truncated := by decide +kernel
/-- The encoder writes E-7. -/
theorem test_encode_vextracti64x4_sib :
    encode (.vextracti64x4 (.mem (.sib 4 4 0 (.disp8 1))) 31 1 ⟨0, false⟩) =
      [0x62, 0x63, 0xFD, 0x48, 0x3B, 0x7C, 0x24, 0x01, 0x01] := by decide +kernel
/-- The row of VEXTRACTI64X4.512 as a table word. -/
theorem test_decodeTableWord :
    decodeTableWord 40 0x3B48FDF362 = some (.vextracti64x4 (.mem (.base 0 .none)) 0 0 ⟨0, false⟩) := by decide +kernel

/-! ### One step of each instruction -/

/-- V2. -/
theorem test_vextracti128_register : regAfter [0xC4, 0xE3, 0x7D, 0x39, 0xD1, 0x01] 1 =
    some (0x1F1E1D1C1B1A19181716151413121110, 0x1006) := by decide +kernel
/-- V5. -/
theorem test_vextracti128_memory : memAfter [0xC4, 0xE3, 0x7D, 0x39, 0x10, 0x01] 16 =
    some ((List.range 16).map fun q => some (BitVec.ofNat 8 (0x10 + q))) := by decide +kernel
/-- A3. -/
theorem test_vextracti32x4V256_merging : regAfter [0x62, 0xF3, 0x7D, 0x29, 0x39, 0xD1, 0x01] 1 =
    some (0x1F1E1D1C8B8A89881716151483828180, 0x1007) := by decide +kernel
/-- A4. -/
theorem test_vextracti32x4V256_zeroing : regAfter [0x62, 0xF3, 0x7D, 0xA9, 0x39, 0xD1, 0x00] 1 =
    some (0x0F0E0D0C000000000706050400000000, 0x1007) := by decide +kernel
/-- A18: the destination is the source. -/
theorem test_vextracti32x4V512_source_is_destination : regAfter [0x62, 0xF3, 0x7D, 0x49, 0x39, 0xD2, 0x03] 2 =
    some (0x3F3E3D3C0B0A09083736353403020100, 0x1007) := by decide +kernel
/-- A13, its first eight bytes. -/
theorem test_vextracti32x4V512_memory : memAfter [0x62, 0xF3, 0x7D, 0x49, 0x39, 0x10, 0x02] 8 =
    some ([0xC0, 0xC1, 0xC2, 0xC3, 0x24, 0x25, 0x26, 0x27].map some) := by decide +kernel
/-- B2. -/
theorem test_vextracti64x2V256_merging : regAfter [0x62, 0xF3, 0xFD, 0x29, 0x39, 0xD1, 0x01] 1 =
    some (0x1F1E1D1C1B1A19188786858483828180, 0x1007) := by decide +kernel
/-- B4. -/
theorem test_vextracti64x2V512_zeroing : regAfter [0x62, 0xF3, 0xFD, 0xC9, 0x39, 0xD1, 0x02] 1 =
    some (0x2F2E2D2C2B2A29280000000000000000, 0x1007) := by decide +kernel
/-- B7. -/
theorem test_vextracti64x2V512_memory : memAfter [0x62, 0xF3, 0xFD, 0x49, 0x39, 0x10, 0x03] 16 =
    some ([0xC0, 0xC1, 0xC2, 0xC3, 0xC4, 0xC5, 0xC6, 0xC7, 0x38, 0x39, 0x3A, 0x3B, 0x3C, 0x3D, 0x3E, 0x3F].map some) := by
  decide +kernel
/-- C4. -/
theorem test_vextracti32x8_merging : regAfter [0x62, 0xF3, 0x7D, 0x49, 0x3B, 0xD1, 0x01] 1 =
    some (0x9F9E9D9C3B3A393897969594333231302F2E2D2C8B8A89882726252483828180, 0x1007) := by decide +kernel
/-- C8: disp8 = 02 scaled by 32. -/
theorem test_vextracti32x8_memory :
    (nextOf (step (launch [0x62, 0xF3, 0x7D, 0x4B, 0x3B, 0x50, 0x02, 0x01]))).map
      (fun t => [0x203F, 0x2040, 0x2044, 0x2054, 0x205F].map (Memory.read t.mem)) =
    some [none, some 0x20, none, some 0x34, some 0x3F] := by decide +kernel
/-- E4. -/
theorem test_vextracti64x4_merging : regAfter [0x62, 0xF3, 0xFD, 0x49, 0x3B, 0xD1, 0x01] 1 =
    some (0x3F3E3D3C3B3A393897969594939291902F2E2D2C2B2A29288786858483828180, 0x1007) := by decide +kernel
/-- E6, its first sixteen bytes. -/
theorem test_vextracti64x4_memory : memAfter [0x62, 0xF3, 0xFD, 0x49, 0x3B, 0x10, 0x00] 16 =
    some ([0xC0, 0xC1, 0xC2, 0xC3, 0xC4, 0xC5, 0xC6, 0xC7, 0x08, 0x09, 0x0A, 0x0B, 0x0C, 0x0D, 0x0E, 0x0F].map some) := by
  decide +kernel

/-! ### Reset -/

/-- The state after reset: launch premises, canonical memory, no program. -/
theorem test_reset : State.reset.mem.wf ∧ State.reset.osAvx512 = true ∧ State.reset.osTs = false ∧
    State.reset.acEnabled = false ∧ refusalOf (step State.reset) = some .programEnded := by
  refine ⟨?_, by decide, by decide, by decide, by decide +kernel⟩
  unfold State.reset; decide

/-- `withFetchWord` makes the very next step run the word's instruction. -/
theorem test_withFetchWord : (nextOf (step (State.reset.withFetchWord 32 0x397D03C4))).map (·.pc) =
    some 0xFFF6 := by decide +kernel

/-! ### Witnesses: states and operands for the statements -/

/-- `vextracti128 xmm1, ymm2, 1` of V2. -/
abbrev v2 : Instr := .vextracti128 (.reg 1) 2 1
/-- `vextracti128 [rax], ymm2, 1` of V5. -/
abbrev v5 : Instr := .vextracti128 (.mem (.base 0 .none)) 2 1
/-- `vextracti32x4 [rax] k1, zmm2, 2` of A13. -/
abbrev a13 : Instr := .vextracti32x4V512 (.mem (.base 0 .none)) 2 2 ⟨1, false⟩
/-- `vextracti64x4 [rax] k1, zmm2, 0` of E6. -/
abbrev e6 : Instr := .vextracti64x4 (.mem (.base 0 .none)) 2 0 ⟨1, false⟩

/-- The standard state with another value in RAX. -/
abbrev launchAt (rax : Word) : State := { launch (encode v5) with gpr := State.reset.gpr.set 0 rax }

theorem test_witness_DecodeOfEncodeGivesTheInstruction :
    v2.wf = true ∧ (Instr.vextracti128 (.reg 15) 15 0xFF).wf = true ∧
    (Instr.vextracti64x4 (.reg 31) 31 0xFF ⟨7, true⟩).wf = true ∧ a13.wf = true ∧
    (Instr.vextracti128 (.mem (.sib 13 4 3 (.disp32 0x80000000))) 0 0).wf = true := by decide

theorem test_witness_DecodedInstructionIsAWellFormedPrefix :
    decode [0xC4, 0xE3, 0x7D, 0x39, 0xD1, 0x01, 0x90] = .insn v2 [0x90] := by decide +kernel

theorem test_witness_DecodedBytesMatchTheirTableRowOnly :
    decode (encode a13) = .insn a13 [] ∧ ∃ r ∈ opcodeTable, r.matches (encode a13) = true := by decide +kernel

/-- One byte string for each branch: `z` without writemask, `z` with memory, and a row's instruction, with nothing
behind it. -/
theorem test_witness_BytesMatchingARowDecodeToItsForm :
    ∀ b ∈ [encode (.vextracti64x4 (.reg 1) 2 1 ⟨0, true⟩),
        encode (.vextracti64x4 (.mem (.base 0 .none)) 2 1 ⟨1, true⟩), encode (.vextracti64x4 (.reg 1) 2 1 ⟨1, true⟩)],
      ∃ r ∈ opcodeTable, r.matches b = true ∧ r.form ≠ .f1 ∧
        (takeTail 0 0 0 (b.drop r.pattern.length)).isSome = true := by decide +kernel

/-- A program that `launch` places can be fetched, and `launch` is in 64-bit mode before the program's end. -/
def Offers (code : List Byte) : Prop :=
  (launch code).mode = .bits64 ∧ (launch code).ended = false ∧ (launch code).Fetches code

/-- X1 (VEX.L = 0), X2 (VEX `vvvv` = 1110), X4 and the same with opcode 3BH: one instruction of six or seven bytes,
with the program's end behind it. -/
theorem test_witness_SourceReservedSettingsRaiseUD :
    CompletesInstruction [0xD1, 0x01] ∧
    Offers [0xC4, 0xE3, 0x79, 0x39, 0xD1, 0x01] ∧ Offers [0xC4, 0xE3, 0x75, 0x39, 0xD1, 0x01] ∧
    Offers [0x62, 0xF3, 0x75, 0x48, 0x39, 0xD1, 0x01] ∧ Offers [0x62, 0xF3, 0x75, 0x48, 0x3B, 0xD1, 0x01] ∧
    (0xE3 : Byte).extractLsb' 0 5 = 0b00011 ∧ (0x75 : Byte).extractLsb' 0 2 = 0b01 ∧
    (0x75 : Byte).extractLsb' 3 4 ≠ 0b1111 ∧ (0x79 : Byte).extractLsb' 0 2 = 0b01 ∧ (0x79 : Byte).getLsbD 2 = false ∧
    (0xF3 : Byte).extractLsb' 0 2 = 0b11 := by
  unfold Offers State.Fetches State.FetchesTo State.Fetchable; decide +kernel

/-- The program of these five EVEX bytes and an immediate meets the hypotheses of the EVEX clause of
`OtherReservedSettingsRaiseUD`. -/
def ReservedEvex (p0 p1 p2 opcode modrm : Byte) : Prop :=
  CompletesInstruction [modrm, 1] ∧ Offers [0x62, p0, p1, p2, opcode, modrm, 1] ∧ p0.extractLsb' 0 2 = 0b11 ∧
  p1.extractLsb' 0 2 = 0b01 ∧ (opcode = 0x39 ∨ opcode = 0x3B) ∧
  (p0.extractLsb' 2 2 ≠ 0 ∨ p1.getLsbD 2 = false ∨
    (opcode = 0x39 ∧ (p2.extractLsb' 5 2 = 0b00 ∨ p2.extractLsb' 5 2 = 0b11)) ∨
    (opcode = 0x3B ∧ p2.extractLsb' 5 2 ≠ 0b10) ∨ p2.getLsbD 4 = true ∨ p2.getLsbD 3 = false ∨
    (p2.getLsbD 7 = true ∧ (p2.extractLsb' 0 3 = 0 ∨ modrm.extractLsb' 6 2 ≠ 0b11)))

/-- X3 (VEX.W = 1) and each EVEX condition: P0 bit 2, P1 bit 2, L'L = 00 and 11, opcode 3BH with L'L = 01, b, V',
`z` without writemask, `z` with memory. -/
theorem test_witness_OtherReservedSettingsRaiseUD :
    (Offers [0xC4, 0xE3, 0xFD, 0x39, 0xD1, 0x01] ∧
      (0xFD : Byte).extractLsb' 0 2 = 0b01 ∧ (0xFD : Byte).getLsbD 7 = true) ∧
    ReservedEvex 0xF7 0x7D 0x48 0x39 0xD1 ∧ ReservedEvex 0xF3 0x79 0x48 0x39 0xD1 ∧
    ReservedEvex 0xF3 0x7D 0x08 0x39 0xD1 ∧ ReservedEvex 0xF3 0x7D 0x68 0x39 0xD1 ∧
    ReservedEvex 0xF3 0x7D 0x28 0x3B 0xD1 ∧ ReservedEvex 0xF3 0x7D 0x58 0x39 0xD1 ∧
    ReservedEvex 0xF3 0x7D 0x40 0x39 0xD1 ∧ ReservedEvex 0xF3 0x7D 0xC8 0x39 0xD1 ∧
    ReservedEvex 0xF3 0x7D 0xC9 0x39 0x10 := by
  unfold ReservedEvex Offers State.Fetches State.FetchesTo State.Fetchable
  refine ⟨?_, ?_, ?_, ?_, ?_, ?_, ?_, ?_, ?_, ?_⟩ <;> decide +kernel

theorem test_witness_OnlyTheFamilysOpcodesRaiseUDOrDecode :
    (∀ why, decode [0xC4, 0xE3, 0x79, 0x39, 0xD1, 0x01] ≠ .refused why) ∧
    (∀ why, decode [0x62, 0xF3, 0xFD, 0x48, 0x3B, 0xD1, 0x01] ≠ .refused why) := by
  have h1 : decode [0xC4, 0xE3, 0x79, 0x39, 0xD1, 0x01] = .ud := by decide +kernel
  have h2 : decode [0x62, 0xF3, 0xFD, 0x48, 0x3B, 0xD1, 0x01] =
    .insn (.vextracti64x4 (.reg 1) 2 1 ⟨0, false⟩) [] := by decide +kernel
  exact ⟨fun why => by rw [h1]; simp, fun why => by rw [h2]; simp⟩

/-- X24 (90H), X22 (a legacy prefix) and X23 (C5H); X21 (opcode), X18 (`pp`); X20 (map), X19 (`pp`). -/
theorem test_witness_OtherInstructionsAreRefused :
    (Offers [0x90] ∧ (launch [0x66, 0xC4, 0xE3, 0x7D, 0x39, 0xD1, 0x01]).Fetches [0x66] ∧
      (launch [0xC5, 0xFD, 0x39, 0xD1, 0x01]).Fetches [0xC5]) ∧
    (Offers [0xC4, 0xE3, 0x7D, 0x38] ∧ Offers [0xC4, 0xE3, 0x7C, 0x39] ∧ (0x7C : Byte).extractLsb' 0 2 ≠ 0b01) ∧
    (Offers [0x62, 0xF2, 0x7D, 0x48, 0x39] ∧ (0xF2 : Byte).extractLsb' 0 2 ≠ 0b11 ∧
      Offers [0x62, 0xF3, 0x7C, 0x48, 0x39]) := by
  unfold Offers State.Fetches State.FetchesTo State.Fetchable
  refine ⟨⟨?_, ?_, ?_⟩, ⟨?_, ?_, ?_⟩, ?_, ?_, ?_⟩ <;> decide +kernel

theorem test_witness_TwelveBytesAreNeverTruncated :
    12 ≤ (encode (.vextracti32x8 (.mem (.sibNoBase 1 3 0x10)) 2 1 ⟨0, false⟩)).length := by decide

theorem test_witness_StepRunsTheDecodedInstruction :
    (launch (encode v2)).mode = .bits64 ∧ (launch (encode v2)).ended = false ∧
      decode (fetchBytes (launch (encode v2))).1 = .insn v2 [] := by decide +kernel

/-- The second of three instructions, at an offset of six bytes. -/
theorem test_witness_StepRunsTheEncodedInstructionAtPc :
    let bytes := encode v2 ++ encode a13 ++ encode e6
    let s := { launch bytes with pc := 0x1006 }
    s.mode = .bits64 ∧ a13.wf = true ∧ s.HoldsText bytes ∧ bytes.length < Config.spaceSize ∧
      s.pc = s.text.base + BitVec.ofNat 64 (encode v2).length := by
  unfold State.HoldsText State.HoldsBytes; decide +kernel

theorem test_witness_RunOfAProgramTextRunsItsInstructionsInOrder :
    let is := [v2, a13, e6]
    let s := launch (is.flatMap encode)
    s.mode = .bits64 ∧ (∀ i ∈ is, i.wf = true) ∧ s.HoldsText (is.flatMap encode) ∧
      (is.flatMap encode).length < Config.spaceSize ∧ s.pc = s.text.base := by
  unfold State.HoldsText State.HoldsBytes; decide +kernel

/-- At reset, and at the highest pc that leaves room for the longest instruction. -/
theorem test_witness_StepRunsTheLoadedTableWord :
    State.reset.mode = .bits64 ∧ State.reset.pc.toNat + maxLength ≤ Config.spaceSize ∧
    decodeTableWord 32 0x397DE3C4 = some (.vextracti128 (.mem (.base 0 .none)) 0 0) ∧
    (0xFFFFFFFFFFFFFFF4 : Word).toNat + maxLength ≤ Config.spaceSize := by decide +kernel

/-- The standard state with the pc of V2's program elsewhere. -/
abbrev launchPc (a : Word) : State := { launch (encode v2) with pc := a }

/-- The end of the text, one byte past that, and one byte before the text. -/
theorem test_witness_RunEndsOnlyAtTheEndOfTheText :
    ((launchPc 0x1006).mode = .bits64 ∧ (launchPc 0x1006).pc = (launchPc 0x1006).text.finish) ∧
    ((launchPc 0x1007).pc ≠ (launchPc 0x1007).text.finish ∧ (launchPc 0x1007).text.holds 0x1007 = false) ∧
    ((launchPc 0xFFF).pc ≠ (launchPc 0xFFF).text.finish ∧ (launchPc 0xFFF).text.holds 0xFFF = false) := by
  decide +kernel

/-- The bytes of V2 are a whole instruction of the family. -/
theorem whole_v2 : WholeInstruction [0xC4, 0xE3, 0x7D, 0x39, 0xD1, 0x01] :=
  .vex 0xE3 0x7D [0xD1, 0x01] (by decide) (by decide) (by decide)

/-- The bytes of X4, with a reserved `vvvv`, are a whole instruction of the family too. -/
theorem whole_x4 : WholeInstruction [0x62, 0xF3, 0x75, 0x48, 0x39, 0xD1, 0x01] :=
  .evex 0xF3 0x75 0x48 0x39 [0xD1, 0x01] (by decide) (by decide) (by decide) (by decide)

/-- V2 with only the first `n` bytes admitted for fetching. -/
abbrev launchAdmitting (n : Nat) : State := { launch (encode v2) with regions := [⟨0x1000, n, false, true⟩] }

/-- The first byte, and the last, not admitted. -/
theorem test_witness_FetchNeedsAdmission :
    (launchAdmitting 5).mode = .bits64 ∧ (launchAdmitting 5).ended = false ∧
    (∀ n ∈ [0, 5], (launchAdmitting n).FetchesTo [0xC4, 0xE3, 0x7D, 0x39, 0xD1, 0x01] n ∧
      (launchAdmitting n).text.holds ((launchAdmitting n).pc.toNat + n) = true ∧
      ∀ r ∈ (launchAdmitting n).regions, r.admits .fetch ((launchAdmitting n).pc.toNat + n) = false) := by
  unfold State.FetchesTo State.Fetchable; decide +kernel

/-- The last byte of V2 and of X4 behind the text's end. -/
theorem test_witness_InstructionPastTheTextIsRefused :
    (Offers [0xC4, 0xE3, 0x7D, 0x39, 0xD1] ∧
      (launch [0xC4, 0xE3, 0x7D, 0x39, 0xD1]).FetchesTo [0xC4, 0xE3, 0x7D, 0x39, 0xD1, 0x01] 5 ∧
      (launch [0xC4, 0xE3, 0x7D, 0x39, 0xD1]).text.holds (0x1000 + 5) = false) ∧
    (launch [0x62, 0xF3, 0x75, 0x48, 0x39, 0xD1]).FetchesTo [0x62, 0xF3, 0x75, 0x48, 0x39, 0xD1, 0x01] 6 ∧
      (launch [0x62, 0xF3, 0x75, 0x48, 0x39, 0xD1]).text.holds (0x1000 + 6) = false := by
  unfold Offers State.Fetches State.FetchesTo State.Fetchable
  refine ⟨⟨?_, ?_, ?_⟩, ?_, ?_⟩ <;> decide +kernel

/-- V2 with a text one byte longer than the bytes that memory holds. -/
theorem test_witness_UnwrittenProgramByteFaults :
    let s := { launch [0xC4, 0xE3, 0x7D, 0x39, 0xD1] with
      text := ⟨0x1000, 6⟩, regions := [⟨0x1000, 6, false, true⟩] }
    s.mode = .bits64 ∧ s.ended = false ∧ s.FetchesTo [0xC4, 0xE3, 0x7D, 0x39, 0xD1, 0x01] 5 ∧
      s.text.holds (s.pc.toNat + 5) = true ∧ s.memAdmit (s.pc.toNat + 5) 1 .fetch = true ∧
      Memory.read s.mem (s.pc.toNat + 5) = none := by
  unfold State.FetchesTo State.Fetchable; decide +kernel

/-- A program whose second instruction is not admitted by its feature flag. -/
theorem test_witness_FaultedRunReportsTheStateOfTheFault :
    let s := { launch (encode v2 ++ encode a13) with feat := ⟨true, false, true, true⟩ }
    (match run 2 s with | .faulted f u => some (f, u.pc) | _ => none) = some (Fault.ud, 0x1006) := by decide +kernel

theorem test_witness_StepKeepsTheInvariant :
    (launch (encode a13)).Inv ∧ ∃ t, step (launch (encode a13)) = .next t := by
  have h : (nextOf (step (launch (encode a13)))).isSome = true := by decide +kernel
  refine ⟨?_, ?_⟩
  · unfold State.Inv; decide +kernel
  · cases hs : step (launch (encode a13)) with
    | next t => exact ⟨t, rfl⟩
    | fault f => simp [hs, nextOf] at h
    | refused r => simp [hs, nextOf] at h

theorem test_witness_StepKeepsTheProgramText :
    (launch (encode a13)).HoldsText (encode a13) ∧ (nextOf (step (launch (encode a13)))).isSome = true := by
  unfold State.HoldsText State.HoldsBytes; decide +kernel

/-- A register destination and a memory destination, with addresses just outside the footprint. -/
theorem test_witness_InstructionChangesOnlyItsDestination :
    (nextOf (exec v2 (launch (encode v2)))).isSome = true ∧ v2.dst = .reg 1 ∧ (2 : VReg) ≠ 1 ∧
    (nextOf (exec a13 (launch (encode a13)))).isSome = true ∧ a13.dst = .mem (.base 0 .none) ∧
    (storeAddress (launch (encode a13)) a13.form (.base 0 .none)).toNat = 0x2000 ∧
    0x1FFF < 0x2000 ∧ 0x2000 + extractWidth a13.form / 8 ≤ 0x2010 := by decide +kernel

/-- Every form is ready at reset. -/
theorem ready_reset (f : Form) : State.reset.Ready f := by cases f <;> unfold State.Ready <;> decide

/-- Every form is ready where the enables are those of the launch state. -/
theorem ready_of_launch {s : State} {f : Form} (hm : s.mode = .bits64) (hf : s.feat = .all)
    (hx : s.xcr0 = 0xE7) (h4 : s.cr4 = 0x40020) (h0 : s.cr0 = 0xE0000011) : s.Ready f := by
  refine ⟨hm, ?_, ?_⟩
  · cases f <;> simp [State.featureOk, Features.allow, State.osAllows, State.osAvx512, State.osAvx,
      State.cr4OSXSAVE, hf, hx, h4, Features.all]
  · simp [State.osTs, h0]

/-- Every form is ready in the standard state. -/
theorem ready_launchAt (rax : Word) (f : Form) : (launchAt rax).Ready f :=
  ready_of_launch rfl rfl rfl rfl rfl

/-- The bits at and above the block: 128 and 256 are the lowest, 511 the highest. -/
theorem test_witness_RegisterDestinationIsZeroAboveTheBlock :
    State.reset.Ready v2.form ∧ v2.dst = .reg 1 ∧ extractWidth v2.form ≤ 128 ∧ extractWidth .f7 ≤ 511 :=
  ⟨ready_reset _, by decide, by decide, by decide⟩

theorem test_witness_MaskedRegisterWriteFollowsTheLoop : Form.f2 ≠ .f1 ∧ Form.f7 ≠ .f1 := by decide

/-- The widest store that fits the admitted bytes from 2000H to 205FH ends at 205FH. -/
theorem storeReady_launchAt : (launchAt 0x2050).StoreReady 0x2050 16 ∧ (launchAt 0x2040).StoreReady 0x2040 32 := by
  unfold State.StoreReady State.FootprintClear State.FootprintAdmitted; decide +kernel

/-- A store that ends just before the text's first byte, and one that starts just behind its last, are ready where
the bytes around the text are admitted. -/
theorem test_storeReady_around_text :
    let s := { launch (encode v5) with regions := [⟨0xF00, 0x200, true, true⟩] }
    s.StoreReady 0xFF0 16 ∧ s.StoreReady 0x1006 32 ∧ ¬ s.FootprintClear 0xFF1 16 ∧ ¬ s.FootprintClear 0x1005 32 := by
  unfold State.StoreReady State.FootprintClear State.FootprintAdmitted; decide +kernel

/-- The addresses of a base-register destination in the standard state. -/
theorem storeAddress_launchAt :
    (∀ f ∈ [Form.f1, .f2, .f3, .f4, .f5], storeAddress (launchAt 0x2050) f (.base 0 .none) = 0x2050) ∧
    (∀ f ∈ [Form.f6, .f7], storeAddress (launchAt 0x2040) f (.base 0 .none) = 0x2040) := by decide +kernel

theorem test_witness_Vextracti128CompletesWithItsResult :
    (launchAt 0x2050).Ready .f1 ∧ (launchAt 0x2050).StoreReady (storeAddress (launchAt 0x2050) .f1 (.base 0 .none)) 16 :=
  ⟨ready_launchAt _ _, storeAddress_launchAt.1 .f1 (by simp) ▸ storeReady_launchAt.1⟩

theorem test_witness_Vextracti32x4OfYmmCompletesWithItsResult :
    (launchAt 0x2050).Ready .f2 ∧ (launchAt 0x2050).StoreReady (storeAddress (launchAt 0x2050) .f2 (.base 0 .none)) 16 :=
  ⟨ready_launchAt _ _, storeAddress_launchAt.1 .f2 (by simp) ▸ storeReady_launchAt.1⟩

theorem test_witness_Vextracti32x4OfZmmCompletesWithItsResult :
    (launchAt 0x2050).Ready .f3 ∧ (launchAt 0x2050).StoreReady (storeAddress (launchAt 0x2050) .f3 (.base 0 .none)) 16 :=
  ⟨ready_launchAt _ _, storeAddress_launchAt.1 .f3 (by simp) ▸ storeReady_launchAt.1⟩

theorem test_witness_Vextracti64x2OfYmmCompletesWithItsResult :
    (launchAt 0x2050).Ready .f4 ∧ (launchAt 0x2050).StoreReady (storeAddress (launchAt 0x2050) .f4 (.base 0 .none)) 16 :=
  ⟨ready_launchAt _ _, storeAddress_launchAt.1 .f4 (by simp) ▸ storeReady_launchAt.1⟩

theorem test_witness_Vextracti64x2OfZmmCompletesWithItsResult :
    (launchAt 0x2050).Ready .f5 ∧ (launchAt 0x2050).StoreReady (storeAddress (launchAt 0x2050) .f5 (.base 0 .none)) 16 :=
  ⟨ready_launchAt _ _, storeAddress_launchAt.1 .f5 (by simp) ▸ storeReady_launchAt.1⟩

theorem test_witness_Vextracti32x8CompletesWithItsResult :
    (launchAt 0x2040).Ready .f6 ∧ (launchAt 0x2040).StoreReady (storeAddress (launchAt 0x2040) .f6 (.base 0 .none)) 32 :=
  ⟨ready_launchAt _ _, storeAddress_launchAt.2 .f6 (by simp) ▸ storeReady_launchAt.2⟩

theorem test_witness_Vextracti64x4CompletesWithItsResult :
    (launchAt 0x2040).Ready .f7 ∧ (launchAt 0x2040).StoreReady (storeAddress (launchAt 0x2040) .f7 (.base 0 .none)) 32 :=
  ⟨ready_launchAt _ _, storeAddress_launchAt.2 .f7 (by simp) ▸ storeReady_launchAt.2⟩

/-- Real-address mode, virtual-8086 mode, a flag missing for each form, and each enable missing. -/
theorem test_witness_MissingFeatureOrEnableRaisesUD :
    (State.powerUp 0).mode = .realAddress ∧ { State.reset with mode := .virtual8086 }.mode = .virtual8086 ∧
    State.reset.mode = .bits64 ∧ (∀ f, (Features.mk false false false false).allow f = false) ∧
    { State.reset with cr4 := 0x20 }.cr4.getLsbD 18 = false ∧
    { State.reset with xcr0 := 0xE3 }.xcr0.extractLsb' 1 2 ≠ 0b11 ∧
    { State.reset with xcr0 := 0x67 }.xcr0.extractLsb' 5 3 ≠ 0b111 ∧ a13.form ≠ .f1 :=
  ⟨rfl, rfl, rfl, by intro f; cases f <;> rfl, by decide, by decide, by decide, by decide⟩

theorem test_witness_TaskSwitchedRaisesNM :
    let s := { State.reset with cr0 := 0xE0000019 }
    s.mode = .bits64 ∧ s.featureOk v2.form = true ∧ s.cr0.getLsbD 3 = true := by decide +kernel

/-- X33: only the last eight bytes of the footprint lie outside. -/
theorem test_witness_WholeFootprintIsCheckedWhateverTheMask :
    let s := launchAt 0x2058
    s.Ready a13.form ∧ a13.dst = .mem (.base 0 .none) ∧ (storeAddress s a13.form (.base 0 .none)).toNat = 0x2058 ∧
    s.FootprintClear 0x2058 (extractWidth a13.form / 8) ∧ 15 < extractWidth a13.form / 8 ∧
    ∀ r ∈ s.regions, r.admits .write (0x2058 + 15) = false := ⟨ready_launchAt _ _, by unfold State.FootprintClear; decide +kernel⟩

/-- X35, and the lowest address whose footprint passes the top. -/
theorem test_witness_FootprintPastTheTopFaults :
    let s := launchAt 0xFFFFFFFFFFFFFFF1
    s.Ready v5.form ∧ v5.dst = .mem (.base 0 .none) ∧ (storeAddress s v5.form (.base 0 .none)).toNat = 0xFFFFFFFFFFFFFFF1 ∧
    s.FootprintClear 0xFFFFFFFFFFFFFFF1 (extractWidth v5.form / 8) ∧
    2 ^ 64 < 0xFFFFFFFFFFFFFFF1 + extractWidth v5.form / 8 := ⟨ready_launchAt _ _, by unfold State.FootprintClear; decide +kernel⟩

/-- The last byte of the footprint is the text's first. -/
theorem test_witness_StoreIntoTheProgramTextIsRefused :
    let s := launchAt 0xFF1
    s.Ready v5.form ∧ v5.dst = .mem (.base 0 .none) ∧ (storeAddress s v5.form (.base 0 .none)).toNat = 0xFF1 ∧
    s.text.holds 0x1000 = true ∧ 0x1000 < 0xFF1 + extractWidth v5.form / 8 := ⟨ready_launchAt _ _, by decide +kernel⟩

/-- An aligned and a misaligned address, with alignment checking on. -/
theorem test_witness_AlignmentCheckConcernsMisalignedStoresOnly :
    let s := { launchAt 0x2050 with cr0 := 0xE0040011, rflags := 0x40002, cpl := 3 }
    s.Ready v5.form ∧ s.acEnabled = true ∧ v5.dst = .mem (.base 0 .none) ∧
    (storeAddress s v5.form (.base 0 .none)).toNat = 0x2050 ∧ 0x2050 % (extractWidth v5.form / 8) = 0 ∧
    s.FootprintClear 0x2050 16 ∧ s.FootprintAdmitted 0x2050 16 ∧
    ({ s with gpr := State.reset.gpr.set 0 0x2001 } : State).Ready v5.form ∧
    s.FootprintClear 0x2001 16 ∧ s.FootprintAdmitted 0x2001 16 := by
  unfold State.Ready State.FootprintClear State.FootprintAdmitted; decide +kernel

/-- A13 reads the low four bits of `K[1]`: an opmask file that differs in every other bit of `K[1]`, and in every bit
of the other registers. Form F1, and an EVEX form without writemask, have no condition. -/
theorem test_witness_OtherOpmaskBitsDoNotMatter :
    let s := launch (encode a13)
    let k : Vector KMask Config.nmask := (s.k.map (~~~ ·)).set 1 0xFFFFFFFFFFFFFFAA
    (a13.form ≠ .f1 ∧ a13.writemask.aaa ≠ 0 ∧ ∀ j < elementCount a13.form,
      (k[a13.writemask.aaa.toNat]'a13.writemask.aaa.isLt).getLsbD j = (s.getK a13.writemask.aaa).getLsbD j) ∧
    v5.form = .f1 ∧ (Instr.vextracti32x8 (.reg 1) 2 1 ⟨0, false⟩).writemask.aaa = 0 := by decide +kernel

/-- A13 completes, and does so with memory that holds nothing. -/
theorem test_witness_DataMemoryIsNotRead :
    (nextOf (exec a13 (launch (encode a13)))).isSome = true ∧
    (nextOf (exec a13 { launch (encode a13) with mem := [] })).isSome = true := by decide +kernel

/-- A footprint of one byte, the smallest. -/
theorem test_witness_FootprintConditionsAreByteByByte :
    (0 < 1) ∧ (launch (encode v2)).text.overlaps 0xFFF 1 = false ∧ (launch (encode v2)).text.overlaps 0x1000 1 = true := by
  decide +kernel

/-- All flags but AC set, and another MXCSR. -/
theorem test_witness_FlagsAndMxcsrDoNotMatter :
    (0xFFFFFFFFFFFBFFFF : BitVec 64).getLsbD 18 = State.reset.rflags.getLsbD 18 := by decide

theorem test_witness_UnmaskedFormsAgreeOnTheRegister :
    vectorLength .f1 = vectorLength .f4 ∧ extractWidth .f1 = extractWidth .f4 ∧ State.reset.Ready .f1 ∧
      State.reset.Ready .f4 := ⟨rfl, rfl, ready_reset _, ready_reset _⟩

theorem test_witness_UpperHalfThenBlockIsTheUpperBlock :
    State.reset.Ready .f7 ∧ State.reset.Ready .f1 ∧ State.reset.Ready .f3 :=
  ⟨ready_reset _, ready_reset _, ready_reset _⟩

theorem test_witness_ExtractThenStoreEqualsDirectStore :
    (launchAt 0x2050).Ready .f3 ∧ (launchAt 0x2050).StoreReady (storeAddress (launchAt 0x2050) .f3 (.base 0 .none)) 16 :=
  test_witness_Vextracti32x4OfZmmCompletesWithItsResult

theorem test_witness_IntrinsicsReturnTheDestinationsLowPart :
    (1 : KReg) ≠ 0 ∧ State.reset.Ready (Intrinsic.mm512_mask_extracti32x8_epi32).form :=
  ⟨by decide, ready_reset _⟩

theorem test_witness_IntrinsicElementsFollowTheirFlavour :
    7 < elementCount (Intrinsic.mm512_maskz_extracti32x8_epi32).form ∧
      0 < elementCount (Intrinsic.mm256_extracti128_si256).form := by decide

theorem test_witness_AssemblyMarksFollowTheWritemask :
    (Instr.vextracti64x4 (.reg 20) 9 1 ⟨5, true⟩).wf = true ∧
      (assembly (.vextracti64x4 (.reg 20) 9 1 ⟨5, true⟩)).z = true := by decide

end Sys2Proof.Tests
end

/-! ## The step refuses other instructions -/

namespace Sys2Proof

/-! ### The decoder on another opcode, whatever bytes follow (rules R61, R63, R74) -/

theorem decode_of_other_first_byte {b : Byte} (hvex : b ≠ 0xC4) (hevex : b ≠ 0x62) (more : List Byte) :
    decode (b :: more) = .refused .otherInstruction := by
  rw [decode, if_neg hvex, if_neg hevex]

theorem decode_vex_of_other_opcode {b1 b2 opcode : Byte}
    (h : b1.extractLsb' 0 5 ≠ 0b00011 ∨ b2.extractLsb' 0 2 ≠ 0b01 ∨ opcode ≠ 0x39) (more : List Byte) :
    decode (0xC4 :: b1 :: b2 :: opcode :: more) = .refused .otherInstruction := by
  have hother : ¬(b1.extractLsb' 0 5 = 0b00011 ∧ b2.extractLsb' 0 2 = 0b01 ∧ opcode = 0x39) := by tauto
  rw [decode, if_pos rfl, decodeVex, if_neg hother]

theorem decode_evex_of_other_opcode {p0 p1 p2 opcode : Byte}
    (h : p0.extractLsb' 0 2 ≠ 0b11 ∨ p1.extractLsb' 0 2 ≠ 0b01 ∨ (opcode ≠ 0x39 ∧ opcode ≠ 0x3B))
    (more : List Byte) :
    decode (0x62 :: p0 :: p1 :: p2 :: opcode :: more) = .refused .otherInstruction := by
  have hother : ¬(p0.extractLsb' 0 2 = 0b11 ∧ p1.extractLsb' 0 2 = 0b01 ∧ (opcode = 0x39 ∨ opcode = 0x3B)) := by
    tauto
  have hevex : (0x62 : Byte) ≠ 0xC4 := by decide
  rw [decode, if_neg hevex, if_pos rfl, decodeEvex, if_neg hother]

namespace Machine

/-! ### The step on bytes that the decoder refuses -/

theorem step_of_decode_otherInstruction {s : State} (hmode : s.mode = .bits64) (hrunning : s.ended = false)
    (hdecode : decode (fetchBytes s).1 = .refused .otherInstruction) :
    step s = .refused .otherInstruction := by
  simp [step, hmode, hrunning, hdecode]

/-- The fetch may offer the decoder more than the bytes that decide, so the decoder has to refuse them whatever
follows; then the step refuses too, even where what follows cannot be fetched. -/
theorem step_of_fetches_otherInstruction {s : State} {bytes : List Byte} (hmode : s.mode = .bits64)
    (hrunning : s.ended = false) (hlength : bytes.length ≤ maxLength) (hfetch : s.Fetches bytes)
    (hdecode : ∀ more, decode (bytes ++ more) = .refused .otherInstruction) :
    step s = .refused .otherInstruction := by
  obtain ⟨more, hbytes⟩ := fetchBytes_prefix hlength hfetch
  exact step_of_decode_otherInstruction hmode hrunning (hbytes ▸ hdecode more)

/-- Settles O9: in each clause the named bytes decide the decoder's refusal, whatever stands behind them. -/
theorem otherInstructionsAreRefused : Obligations.OtherInstructionsAreRefused := by
  intro s hmode hrunning
  refine ⟨?firstByte, ?vex, ?evex⟩
  case firstByte =>
    intro b hfetch hvex hevex
    exact step_of_fetches_otherInstruction hmode hrunning (by simp [maxLength]) hfetch
      (decode_of_other_first_byte hvex hevex)
  case vex =>
    intro b1 b2 opcode hfetch hother
    exact step_of_fetches_otherInstruction hmode hrunning (by simp [maxLength]) hfetch
      (decode_vex_of_other_opcode hother)
  case evex =>
    intro p0 p1 p2 opcode hfetch hother
    exact step_of_fetches_otherInstruction hmode hrunning (by simp [maxLength]) hfetch
      (decode_evex_of_other_opcode hother)

end Machine

end Sys2Proof

/-! ## The state after reset meets the launch premises -/

namespace Sys2Proof.Machine

/-! ### The enables at reset (log entry 1; decisions D2, D7, D12) -/

@[simp] theorem reset_mode : State.reset.mode = .bits64 := rfl

@[simp] theorem reset_osTs : State.reset.osTs = false := by decide

theorem reset_osAvx : State.reset.osAvx = true := by decide

theorem reset_osAvx512 : State.reset.osAvx512 = true := by decide

theorem reset_osAllows (f : Form) : State.reset.osAllows f = true := by
  cases f with
  | f1 => exact reset_osAvx
  | f2 | f3 | f4 | f5 | f6 | f7 => exact reset_osAvx512

theorem allow_all (f : Form) : Features.all.allow f = true := by cases f <;> rfl

@[simp] theorem reset_featureOk (f : Form) : State.reset.featureOk f = true := by
  have hfeat : State.reset.feat = .all := rfl
  rw [State.featureOk, hfeat, allow_all, reset_osAllows, Bool.and_self]

theorem reset_ready (f : Form) : State.reset.Ready f := ⟨reset_mode, reset_featureOk f, reset_osTs⟩

/-- Alignment checking is off at reset because CR0.AM is clear (rule R30). -/
@[simp] theorem reset_acEnabled : State.reset.acEnabled = false := by
  have ham : State.reset.cr0AM = false := by decide
  simp [State.acEnabled, ham]

/-- The run has ended in any state that stands at the base of an empty text (rule R176). -/
theorem ended_of_empty_text {s : State} (hpc : s.pc = s.text.base) (hsize : s.text.size = 0) : s.ended = true := by
  simp [State.ended, ProgramText.finish, hpc, hsize]

theorem reset_ended : State.reset.ended = true := ended_of_empty_text rfl rfl

/-- Settles O46, from the enables that log entry 1 gives the state after reset and its empty text. -/
theorem resetCarriesTheLaunchPremises : Obligations.ResetCarriesTheLaunchPremises :=
  ⟨reset_ready, reset_acEnabled, reset_ended⟩

end Sys2Proof.Machine

/-! ## What an instruction leaves unchanged, and what every step keeps -/

namespace Sys2Proof.Machine

/-! ### What the destination write leaves unchanged (rules R109, R111) -/

section Frame

variable {f : Form} {dst : Operand} {s t : State}

/-- Only the vector registers, memory and the pc can differ after the destination write. -/
theorem DestinationWritten.eq_update (h : DestinationWritten f dst s t) :
    t = { s with zmm := t.zmm, mem := t.mem, pc := nextPc s f dst } := by
  cases dst with
  | reg d => obtain ⟨v, rfl⟩ := h; rfl
  | mem m => obtain ⟨-, -, mem, rfl, -, -⟩ := h; rfl

theorem DestinationWritten.text_eq (h : DestinationWritten f dst s t) : t.text = s.text := by rw [h.eq_update]

theorem DestinationWritten.regions_eq (h : DestinationWritten f dst s t) : t.regions = s.regions := by
  rw [h.eq_update]

theorem DestinationWritten.mem_eq_of_reg {d : VReg} (h : DestinationWritten f (.reg d) s t) : t.mem = s.mem := by
  obtain ⟨v, rfl⟩ := h; rfl

theorem DestinationWritten.getZmm_of_ne {d r : VReg} (h : DestinationWritten f (.reg d) s t) (hr : r ≠ d) :
    t.getZmm r = s.getZmm r := by
  obtain ⟨v, rfl⟩ := h
  exact getZmm_setZmm_ne s v hr

theorem DestinationWritten.zmm_eq_of_mem {m : MemOperand} (h : DestinationWritten f (.mem m) s t) :
    t.zmm = s.zmm := by
  obtain ⟨-, -, mem, rfl, -, -⟩ := h; rfl

theorem DestinationWritten.read_outside {m : MemOperand} (h : DestinationWritten f (.mem m) s t) {a : Nat}
    (ha : a < (storeAddress s f m).toNat ∨ (storeAddress s f m).toNat + extractWidth f / 8 ≤ a) :
    Memory.read t.mem a = Memory.read s.mem a := by
  obtain ⟨-, -, mem, rfl, -, houtside⟩ := h
  exact houtside a ha

theorem DestinationWritten.mem_wf (h : DestinationWritten f dst s t) (hs : s.mem.wf) : t.mem.wf := by
  cases dst with
  | reg d => rwa [h.mem_eq_of_reg]
  | mem m => obtain ⟨-, -, mem, rfl, hwf, -⟩ := h; exact hwf hs

/-- A byte of the program text survives every destination write, because a footprint that overlaps the text is
refused (rule R55). -/
theorem DestinationWritten.read_of_holds (h : DestinationWritten f dst s t) {a : Nat} (ha : s.text.holds a = true) :
    Memory.read t.mem a = Memory.read s.mem a := by
  cases dst with
  | reg d => rw [h.mem_eq_of_reg]
  | mem m =>
    refine h.read_outside ?_
    obtain ⟨hclear, -⟩ := h
    by_contra hinside
    have hnot := not_holds_of_not_overlaps (a := a) hclear (by omega) (by omega)
    simp [ha] at hnot

end Frame

/-- Settles O24: each clause is what the destination write leaves unchanged. -/
theorem instructionChangesOnlyItsDestination : Obligations.InstructionChangesOnlyItsDestination := by
  intro i s t hexec
  obtain ⟨-, hwritten⟩ := exec_next hexec
  refine ⟨hwritten.eq_update, ?register, ?memory⟩
  case register =>
    intro d hd
    rw [hd] at hwritten
    exact ⟨hwritten.mem_eq_of_reg, fun r hr => hwritten.getZmm_of_ne hr⟩
  case memory =>
    intro m hm
    rw [hm] at hwritten
    exact ⟨hwritten.zmm_eq_of_mem, fun a ha => hwritten.read_outside ha⟩

/-! ### What every step keeps -/

/-- WHAT step CAN CHANGE: a next state is the destination write of some instruction. -/
theorem step_next_written {s t : State} (h : step s = .next t) : ∃ f dst, DestinationWritten f dst s t := by
  obtain ⟨-, -, i, -, -, hexec⟩ := step_next h
  exact ⟨i.form, i.dst, (exec_next hexec).2⟩

/-- Settles O21: a destination write keeps memory canonical and does not move the text. -/
theorem stepKeepsTheInvariant : Obligations.StepKeepsTheInvariant := by
  intro s t ⟨hwf, hfits⟩ hstep
  obtain ⟨f, dst, hwritten⟩ := step_next_written hstep
  refine ⟨hwritten.mem_wf hwf, ?_⟩
  rwa [hwritten.text_eq]

/-- Settles O22: nothing is listed in memory, and the text is empty. -/
theorem resetMeetsTheInvariant : Obligations.ResetMeetsTheInvariant :=
  ⟨reset_memory_wf, by decide⟩

theorem holds_iff {p : ProgramText} {a : Nat} :
    p.holds a = true ↔ p.base.toNat ≤ a ∧ a < p.base.toNat + p.size := by simp [ProgramText.holds]

theorem memAdmit_congr {s t : State} (h : t.regions = s.regions) (addr n : Nat) (kind : AccessKind) :
    t.memAdmit addr n kind = s.memAdmit addr n kind := by simp only [State.memAdmit, h]

/-- Settles O23: the text's bytes survive (rule R55), and neither its place nor what is admitted ever changes. -/
theorem stepKeepsTheProgramText : Obligations.StepKeepsTheProgramText := by
  intro s t bytes ⟨hsize, hfits, hbytes, hadmitted⟩ hstep
  obtain ⟨f, dst, hwritten⟩ := step_next_written hstep
  have htext := hwritten.text_eq
  rw [State.HoldsText, State.HoldsBytes, htext]
  refine ⟨⟨hsize, hfits, ?held, ?admitted⟩, rfl⟩
  case held =>
    intro q hq
    have hholds : s.text.holds (s.text.base.toNat + q) = true := holds_iff.mpr (by omega)
    rw [hwritten.read_of_holds hholds, hbytes q hq]
  case admitted =>
    intro q hq
    rw [memAdmit_congr hwritten.regions_eq, hadmitted q hq]

end Sys2Proof.Machine

/-! ## What the decoder reads -/

namespace Sys2Proof

/-! ### Instructions by form -/

section OfForm

variable (f : Form) (dst : Operand) (src : VReg) (imm : Byte) (wm : Writemask)

@[simp] theorem form_ofForm : (Instr.ofForm f dst src imm wm).form = f := by cases f <;> rfl
@[simp] theorem dst_ofForm : (Instr.ofForm f dst src imm wm).dst = dst := by cases f <;> rfl
@[simp] theorem src_ofForm : (Instr.ofForm f dst src imm wm).src = src := by cases f <;> rfl

variable {f}

theorem writemask_ofForm (hf : f ≠ .f1) : (Instr.ofForm f dst src imm wm).writemask = wm := by
  cases f with
  | f1 => contradiction
  | f2 | f3 | f4 | f5 | f6 | f7 => rfl

theorem prefixLength_of_ne_f1 (hf : f ≠ .f1) : f.prefixLength = 4 := by
  cases f with
  | f1 => contradiction
  | f2 | f3 | f4 | f5 | f6 | f7 => rfl

end OfForm

/-! ### How many bytes a reader takes -/

/-- A reader took the first `n` bytes of `bytes` and left `rest`. -/
def Consumes (n : Nat) (bytes rest : List Byte) : Prop :=
  ∃ read, read.length = n ∧ bytes = read ++ rest

theorem Consumes.nothing (bytes : List Byte) : Consumes 0 bytes bytes := ⟨[], rfl, rfl⟩

theorem Consumes.cons {n : Nat} {bytes rest : List Byte} (h : Consumes n bytes rest) (b : Byte) :
    Consumes (n + 1) (b :: bytes) rest := by
  obtain ⟨read, rfl, rfl⟩ := h
  exact ⟨b :: read, rfl, rfl⟩

/-- One more byte is taken from what was left. -/
theorem Consumes.snoc {n : Nat} {bytes rest : List Byte} {b : Byte} (h : Consumes n bytes (b :: rest)) :
    Consumes (n + 1) bytes rest := by
  obtain ⟨read, rfl, rfl⟩ := h
  exact ⟨read ++ [b], by simp, by simp⟩

theorem Consumes.eq_take_append {n : Nat} {bytes rest : List Byte} (h : Consumes n bytes rest) :
    bytes = bytes.take n ++ rest := by
  obtain ⟨read, rfl, rfl⟩ := h
  simp

theorem Consumes.length_eq {n : Nat} {bytes rest : List Byte} (h : Consumes n bytes rest) :
    bytes.length = n + rest.length := by
  obtain ⟨read, rfl, rfl⟩ := h
  simp

/-! ### Displacement and addressing form (rules R60, R66, R67) -/

theorem takeDisp32_consumes {l r : List Byte} {d : BitVec 32} (h : takeDisp32 l = some (d, r)) : Consumes 4 l r := by
  match l with
  | b0 :: b1 :: b2 :: b3 :: rest =>
    simp only [takeDisp32, Option.some.injEq, Prod.mk.injEq] at h
    exact ⟨[b0, b1, b2, b3], rfl, by simp [h.2]⟩
  | [] | [_] | [_, _] | [_, _, _] => simp [takeDisp32] at h

/-- A displacement is read whole, and it is absent only where `mod` announces none. -/
theorem takeDisp_consumes {mod : BitVec 2} {l r : List Byte} {d : Disp} (h : takeDisp mod l = some (d, r)) :
    Consumes d.length l r ∧ (d = .none → mod ≠ 1 ∧ mod ≠ 2) := by
  unfold takeDisp at h
  split at h
  · split at h
    · simp only [Option.some.injEq, Prod.mk.injEq] at h
      obtain ⟨rfl, rfl⟩ := h
      exact ⟨(Consumes.nothing _).cons _, nofun⟩
    · cases h
  · split at h
    · simp only [Option.map_eq_some_iff, Prod.exists, Prod.mk.injEq] at h
      obtain ⟨d32, rest, hd, rfl, rfl⟩ := h
      exact ⟨takeDisp32_consumes hd, nofun⟩
    · rename_i h1 h2
      simp only [Option.some.injEq, Prod.mk.injEq] at h
      obtain ⟨rfl, rfl⟩ := h
      exact ⟨.nothing _, fun _ => ⟨h1, h2⟩⟩

/-- No displacement means `mod = 00`, where a register destination is ruled out. -/
theorem mod_eq_zero_of_takeDisp_none {mod : BitVec 2} {l r : List Byte} (hmod : mod ≠ 3)
    (h : takeDisp mod l = some (.none, r)) : mod = 0 := by
  obtain ⟨h1, h2⟩ := (takeDisp_consumes h).2 rfl
  bv_omega

theorem low_append (b : BitVec 1) (r : BitVec 3) : GReg.low (b ++ r) = r := by
  exact BitVec.extractLsb'_append_eq_right

theorem wf_base_iff {b : GReg} {d : Disp} :
    (MemOperand.base b d).wf = true ↔ GReg.low b ≠ 4 ∧ (d = .none → GReg.low b ≠ 5) := by
  cases d <;> simp [MemOperand.wf]

theorem wf_sib_iff {b index : GReg} {scale : BitVec 2} {d : Disp} :
    (MemOperand.sib b index scale d).wf = true ↔ (d = .none → GReg.low b ≠ 5) := by
  cases d <;> simp [MemOperand.wf]

theorem takeSib_reads {mod : BitVec 2} {x b : BitVec 1} {l r : List Byte} {m : MemOperand} (hmod : mod ≠ 3)
    (h : takeSib mod x b l = some (m, r)) : m.wf = true ∧ Consumes (Operand.mem m).tailLength l r := by
  cases l with
  | nil => simp [takeSib] at h
  | cons sib l =>
    simp only [takeSib] at h
    split at h
    · simp only [Option.map_eq_some_iff, Prod.exists, Prod.mk.injEq] at h
      obtain ⟨d, rest, hd, rfl, rfl⟩ := h
      exact ⟨rfl, (takeDisp32_consumes hd).cons sib⟩
    · rename_i hbase
      simp only [Option.map_eq_some_iff, Prod.exists, Prod.mk.injEq] at h
      obtain ⟨d, rest, hd, rfl, rfl⟩ := h
      refine ⟨wf_sib_iff.mpr ?_, ?_⟩
      · rintro rfl hlow
        rw [low_append] at hlow
        exact hbase ⟨hlow, mod_eq_zero_of_takeDisp_none hmod hd⟩
      · rw [Operand.tailLength, Nat.add_comm]
        exact (takeDisp_consumes hd).1.cons sib

/-- The addressing form that is read can be named by ModRM and SIB, and its bytes are taken. -/
theorem takeMem_reads {mod : BitVec 2} {rm : BitVec 3} {x b : BitVec 1} {l r : List Byte} {m : MemOperand}
    (hmod : mod ≠ 3) (h : takeMem mod rm x b l = some (m, r)) :
    m.wf = true ∧ Consumes (Operand.mem m).tailLength l r := by
  unfold takeMem at h
  split at h
  · exact takeSib_reads hmod h
  · rename_i hsib
    split at h
    · simp only [Option.map_eq_some_iff, Prod.exists, Prod.mk.injEq] at h
      obtain ⟨d, rest, hd, rfl, rfl⟩ := h
      exact ⟨rfl, takeDisp32_consumes hd⟩
    · rename_i hrip
      simp only [Option.map_eq_some_iff, Prod.exists, Prod.mk.injEq] at h
      obtain ⟨d, rest, hd, rfl, rfl⟩ := h
      refine ⟨wf_base_iff.mpr ?_, (takeDisp_consumes hd).1⟩
      rw [low_append]
      refine ⟨hsib, ?_⟩
      rintro rfl hlow
      exact hrip ⟨hlow, mod_eq_zero_of_takeDisp_none hmod hd⟩

/-! ### The tail (rules R60, R65, R70) -/

/-- A register number with bit 4 clear is below 16, the ones form F1 reaches (rules R22, R70). -/
theorem toNat_zero_append_lt (b : BitVec 1) (r : BitVec 3) : (0#1 ++ b ++ r).toNat < 16 := by
  have hnumber : (0#1 ++ b ++ r).toNat = b.toNat <<< 3 ||| r.toNat := by
    rw [BitVec.toNat_append, BitVec.toNat_append]; simp
  rw [hnumber]
  refine Nat.or_lt_two_pow (n := 4) ?_ (by omega)
  rw [Nat.shiftLeft_eq]
  omega

theorem takeOperand_reads {mod : BitVec 2} {rm : BitVec 3} {x4 x b : BitVec 1} {l r : List Byte} {o : Operand}
    {f : Form} (hf : f = .f1 → x4 = 0) (h : takeOperand mod rm x4 x b l = some (o, r)) :
    o.wf f = true ∧ Consumes o.tailLength l r := by
  unfold takeOperand at h
  split at h
  · simp only [Option.some.injEq, Prod.mk.injEq] at h
    obtain ⟨rfl, rfl⟩ := h
    refine ⟨?_, .nothing _⟩
    by_cases h1 : f = .f1
    · obtain rfl := hf h1
      simp only [Operand.wf, h1]
      exact decide_eq_true (toNat_zero_append_lt b rm)
    · simp [Operand.wf, h1]
  · rename_i hmod
    simp only [Option.map_eq_some_iff, Prod.exists, Prod.mk.injEq] at h
    obtain ⟨m, rest, hm, rfl, rfl⟩ := h
    exact takeMem_reads hmod hm

theorem takeTail_reads {x4 x b : BitVec 1} {l : List Byte} {t : Tail} {f : Form} (hf : f = .f1 → x4 = 0)
    (h : takeTail x4 x b l = some t) :
    t.dst.wf f = true ∧ Consumes (2 + t.dst.tailLength) l t.rest := by
  cases l with
  | nil => simp [takeTail] at h
  | cons modrm l =>
    simp only [takeTail] at h
    split at h
    · rename_i dst imm rest ho
      injection h with h
      subst h
      obtain ⟨hwf, hread⟩ := takeOperand_reads hf ho
      refine ⟨hwf, ?_⟩
      rw [Nat.add_comm]
      exact hread.snoc.cons modrm
    · cases h

/-! ### The prefixes -/

/-- WHAT decodeVex CAN ANSWER: F1, behind an opcode of the family with no reserved setting (rules R74, R76, R77). -/
theorem decodeVex_eq_insn {l rest : List Byte} {i : Instr} (h : decodeVex l = .insn i rest) :
    ∃ b1 b2 bytes t, l = b1 :: b2 :: 0x39 :: bytes ∧ b1.extractLsb' 0 5 = 0b00011 ∧ b2.extractLsb' 0 2 = 0b01 ∧
      takeTail 0 (~~~b1.bit 6) (~~~b1.bit 5) bytes = some t ∧
      ¬(b2.bit 2 = 0 ∨ b2.bit 7 = 1 ∨ b2.extractLsb' 3 4 ≠ 0b1111) ∧
      i = .vextracti128 t.dst (0#1 ++ ~~~b1.bit 7 ++ t.reg) t.imm ∧ rest = t.rest := by
  unfold decodeVex at h
  split at h
  · rename_i b1 b2 opcode bytes
    split at h
    · rename_i hop
      obtain ⟨hmap, hpp, rfl⟩ := hop
      split at h
      · cases h
      · rename_i t ht
        split at h
        · cases h
        · rename_i hreserved
          injection h with hi hr
          exact ⟨b1, b2, bytes, t, rfl, hmap, hpp, ht, hreserved, hi.symm, hr.symm⟩
    · cases h
  · cases h

/-- WHAT decodeEvex CAN ANSWER: the form that opcode, W and L'L select, behind an opcode of the family with no
reserved setting (rules R74, R76, R77). -/
theorem decodeEvex_eq_insn {l rest : List Byte} {i : Instr} (h : decodeEvex l = .insn i rest) :
    ∃ p0 p1 p2 opcode bytes t f, l = p0 :: p1 :: p2 :: opcode :: bytes ∧
      p0.extractLsb' 0 2 = 0b11 ∧ p1.extractLsb' 0 2 = 0b01 ∧ (opcode = 0x39 ∨ opcode = 0x3B) ∧
      takeTail (~~~p0.bit 6) (~~~p0.bit 6) (~~~p0.bit 5) bytes = some t ∧
      evexForm opcode (p1.bit 7) (p2.extractLsb' 5 2) = some f ∧ evexReserved p0 p1 p2 = false ∧
      (Writemask.mk (p2.extractLsb' 0 3) (p2.bit 7 == 1)).wf t.dst = true ∧
      i = .ofForm f t.dst (~~~p0.bit 4 ++ ~~~p0.bit 7 ++ t.reg) t.imm ⟨p2.extractLsb' 0 3, p2.bit 7 == 1⟩ ∧
      rest = t.rest := by
  unfold decodeEvex at h
  split at h
  · rename_i p0 p1 p2 opcode bytes
    split at h
    · rename_i hop
      obtain ⟨hmap, hpp, hopcode⟩ := hop
      split at h
      · cases h
      · rename_i t ht
        split at h
        · cases h
        · rename_i f hform
          dsimp only at h
          split at h
          · cases h
          · rename_i hreserved
            simp only [Bool.or_eq_true, Bool.not_eq_true', not_or, Bool.not_eq_true, Bool.not_eq_false]
              at hreserved
            obtain ⟨hfixed, hwm⟩ := hreserved
            injection h with hi hr
            exact ⟨p0, p1, p2, opcode, bytes, t, f, rfl, hmap, hpp, hopcode, ht, hform, hfixed, hwm,
              hi.symm, hr.symm⟩
    · cases h
  · cases h

/-- No opcode behind 62H selects form F1. -/
theorem evexForm_ne_f1 {opcode : Byte} {w : BitVec 1} {ll : BitVec 2} {f : Form}
    (h : evexForm opcode w ll = some f) : f ≠ .f1 := by
  rintro rfl
  unfold evexForm at h
  split_ifs at h <;> cases h

/-- WHAT decode CAN ANSWER: an instruction behind C4H (VEX) or 62H (EVEX). -/
theorem decode_eq_insn {bytes rest : List Byte} {i : Instr} (h : decode bytes = .insn i rest) :
    (∃ l, bytes = 0xC4 :: l ∧ decodeVex l = .insn i rest) ∨
      (∃ l, bytes = 0x62 :: l ∧ decodeEvex l = .insn i rest) := by
  cases bytes with
  | nil => simp [decode] at h
  | cons b l =>
    simp only [decode] at h
    split at h
    · rename_i hb; exact .inl ⟨l, by rw [hb], h⟩
    · split at h
      · rename_i hb; exact .inr ⟨l, by rw [hb], h⟩
      · cases h

theorem decodeVex_reads {l rest : List Byte} {i : Instr} (h : decodeVex l = .insn i rest) (b : Byte) :
    i.wf = true ∧ Consumes i.length (b :: l) rest := by
  obtain ⟨b1, b2, bytes, t, rfl, -, -, ht, -, rfl, rfl⟩ := decodeVex_eq_insn h
  obtain ⟨hdst, hread⟩ := takeTail_reads (f := .f1) (fun _ => rfl) ht
  constructor
  · have hsrc : VReg.wfSrc .f1 (0#1 ++ ~~~b1.bit 7 ++ t.reg) = true :=
      decide_eq_true (toNat_zero_append_lt _ _)
    simp [Instr.wf, Instr.form, Instr.dst, Instr.src, Instr.writemask, Writemask.wf, hdst, hsrc]
  · have hwhole := (((hread.cons 0x39).cons b2).cons b1).cons b
    convert hwhole using 1
    simp only [Instr.length, Instr.form, Instr.dst, encodedLength, Form.prefixLength]
    omega

theorem decodeEvex_reads {l rest : List Byte} {i : Instr} (h : decodeEvex l = .insn i rest) (b : Byte) :
    i.wf = true ∧ Consumes i.length (b :: l) rest := by
  obtain ⟨p0, p1, p2, opcode, bytes, t, f, rfl, -, -, -, ht, hform, -, hwm, rfl, rfl⟩ := decodeEvex_eq_insn h
  have hf := evexForm_ne_f1 hform
  obtain ⟨hdst, hread⟩ := takeTail_reads (f := f) (fun h => absurd h hf) ht
  constructor
  · rw [Instr.wf, form_ofForm, dst_ofForm, src_ofForm, writemask_ofForm _ _ _ _ hf, hdst, hwm]
    simp [VReg.wfSrc, hf]
  · rw [Instr.length, form_ofForm, dst_ofForm, encodedLength, prefixLength_of_ne_f1 hf]
    have hwhole := ((((hread.cons opcode).cons p2).cons p1).cons p0).cons b
    convert hwhole using 1
    omega

namespace Machine

/-- Settles O3: the bytes taken by each part of the decoder add up to the length rule R60 gives. -/
theorem decodedInstructionIsAWellFormedPrefix : Obligations.DecodedInstructionIsAWellFormedPrefix := by
  intro bytes i rest hdecode
  have hreads : i.wf = true ∧ Consumes i.length bytes rest := by
    rcases decode_eq_insn hdecode with ⟨l, rfl, hvex⟩ | ⟨l, rfl, hevex⟩
    · exact decodeVex_reads hvex _
    · exact decodeEvex_reads hevex _
  obtain ⟨hwf, hread⟩ := hreads
  exact ⟨hwf, hread.eq_take_append, hread.length_eq⟩

end Machine

end Sys2Proof

/-! ## What an instruction does not depend on -/

namespace Sys2Proof.Machine

/-! ### State that no instruction writes: the opmask registers, RFLAGS and MXCSR -/

/-- Other opmask registers, flags and MXCSR in place of the state's own. -/
def State.withUnwritten (s : State) (k : Vector KMask Config.nmask) (flags : BitVec 64) (mxcsr : BitVec 32) : State :=
  { s with k := k, rflags := flags, mxcsr := mxcsr }

section Unwritten

variable (s : State) (k : Vector KMask Config.nmask) (flags : BitVec 64) (mxcsr : BitVec 32)

@[simp] theorem withUnwritten_mode : (s.withUnwritten k flags mxcsr).mode = s.mode := rfl
@[simp] theorem withUnwritten_text : (s.withUnwritten k flags mxcsr).text = s.text := rfl
@[simp] theorem withUnwritten_getZmm (r : VReg) : (s.withUnwritten k flags mxcsr).getZmm r = s.getZmm r := rfl
@[simp] theorem withUnwritten_osTs : (s.withUnwritten k flags mxcsr).osTs = s.osTs := rfl

@[simp] theorem withUnwritten_osAllows (f : Form) :
    (s.withUnwritten k flags mxcsr).osAllows f = s.osAllows f := by cases f <;> rfl

@[simp] theorem withUnwritten_featureOk (f : Form) :
    (s.withUnwritten k flags mxcsr).featureOk f = s.featureOk f := by
  rw [State.featureOk, withUnwritten_osAllows]; rfl

@[simp] theorem withUnwritten_memAdmit (addr n : Nat) (kind : AccessKind) :
    (s.withUnwritten k flags mxcsr).memAdmit addr n kind = s.memAdmit addr n kind := rfl

@[simp] theorem withUnwritten_nextPc (f : Form) (dst : Operand) :
    nextPc (s.withUnwritten k flags mxcsr) f dst = nextPc s f dst := rfl

@[simp] theorem withUnwritten_storeAddress (f : Form) (m : MemOperand) :
    storeAddress (s.withUnwritten k flags mxcsr) f m = storeAddress s f m := by cases m <;> rfl

variable {s k flags mxcsr}

theorem withUnwritten_alignmentFaults (hac : flags.getLsbD 18 = s.rflags.getLsbD 18) (ea : Word) (n : Nat) :
    (s.withUnwritten k flags mxcsr).alignmentFaults ea n = s.alignmentFaults ea n := by
  have hflag : (s.withUnwritten k flags mxcsr).rflagsAC = s.rflagsAC := hac
  have hon : (s.withUnwritten k flags mxcsr).acEnabled = s.acEnabled := by
    simp only [State.acEnabled, hflag]; rfl
  rw [State.alignmentFaults, hon, State.alignmentFaults]

theorem checked_withUnwritten {f : Form} {go go' : Result} {g : State → State} (hgo : go' = mapNext g go) :
    checked f (s.withUnwritten k flags mxcsr) go' = mapNext g (checked f s go) := by
  simp only [checked, withUnwritten_mode, withUnwritten_featureOk, withUnwritten_osTs, hgo]
  cases s.mode with
  | realAddress | virtual8086 | legacy32 => rfl
  | bits64 => cases s.featureOk f <;> cases s.osTs <;> rfl

theorem store_withUnwritten (hac : flags.getLsbD 18 = s.rflags.getLsbD 18) (ea : Word) (n : Nat)
    (write : Memory → Memory) (next : Word) :
    store (s.withUnwritten k flags mxcsr) ea n write next =
      mapNext (·.withUnwritten k flags mxcsr) (store s ea n write next) := by
  simp only [store, withUnwritten_text, withUnwritten_memAdmit, withUnwritten_alignmentFaults hac]
  cases s.text.overlaps ea.toNat n <;> cases (!s.memAdmit ea.toNat n .write || s.alignmentFaults ea n) <;> rfl

theorem writeWhole_withUnwritten (hac : flags.getLsbD 18 = s.rflags.getLsbD 18) (tmp : BitVec 128) (dst : Operand) :
    writeWhole tmp dst (s.withUnwritten k flags mxcsr) =
      mapNext (·.withUnwritten k flags mxcsr) (writeWhole tmp dst s) := by
  cases dst with
  | reg d => rfl
  | mem m => simp only [writeWhole, withUnwritten_storeAddress, withUnwritten_nextPc, store_withUnwritten hac]

/-- The masked write reads one enable for each element, and no other opmask bit. -/
theorem writeMasked_withUnwritten {f : Form} {wm : Writemask} (hac : flags.getLsbD 18 = s.rflags.getLsbD 18)
    (hen : ∀ j < elementCount f, (s.withUnwritten k flags mxcsr).enabled wm j = s.enabled wm j) {w : Nat}
    (tmp : BitVec w) (dst : Operand) :
    writeMasked f tmp dst wm (s.withUnwritten k flags mxcsr) =
      mapNext (·.withUnwritten k flags mxcsr) (writeMasked f tmp dst wm s) := by
  cases dst with
  | reg d =>
    simp only [writeMasked, writeRegMasked, withUnwritten_getZmm, blend_congr _ _ _ _ hen]
    rfl
  | mem m =>
    simp only [writeMasked, withUnwritten_storeAddress, withUnwritten_nextPc, writeElements_congr _ _ _ _ hen,
      store_withUnwritten hac]

end Unwritten

/-- The opmask file `k` enables the same elements of form `f` as the file of `s`: they agree on the low bits of
`K[aaa]`, where there is a writemask (rules R24, R103). -/
def SameEnables (f : Form) (wm : Writemask) (s : State) (k : Vector KMask Config.nmask) : Prop :=
  wm.aaa ≠ 0 → ∀ j < elementCount f, (k[wm.aaa.toNat]'wm.aaa.isLt).getLsbD j = (s.getK wm.aaa).getLsbD j

theorem SameEnables.refl (f : Form) (wm : Writemask) (s : State) : SameEnables f wm s s.k := fun _ _ _ => rfl

theorem enabled_withUnwritten {f : Form} {wm : Writemask} {s : State} {k : Vector KMask Config.nmask}
    (hk : SameEnables f wm s k) (flags : BitVec 64) (mxcsr : BitVec 32) {j : Nat} (hj : j < elementCount f) :
    (s.withUnwritten k flags mxcsr).enabled wm j = s.enabled wm j := by
  by_cases hwm : wm.aaa = 0
  · rw [enabled_of_aaa_zero _ hwm, enabled_of_aaa_zero _ hwm]
  · have hbit : ((s.withUnwritten k flags mxcsr).getK wm.aaa).getLsbD j = (s.getK wm.aaa).getLsbD j := hk hwm j hj
    rw [State.enabled, hbit, State.enabled]

/-- WHAT exec READS of the opmask registers, RFLAGS and MXCSR: the enables of its elements, and AC (rules R23,
R27, R28). -/
theorem exec_withUnwritten {i : Instr} {s : State} {k : Vector KMask Config.nmask} {flags : BitVec 64}
    {mxcsr : BitVec 32} (hk : i.form ≠ .f1 → SameEnables i.form i.writemask s k)
    (hac : flags.getLsbD 18 = s.rflags.getLsbD 18) :
    exec i (s.withUnwritten k flags mxcsr) = mapNext (·.withUnwritten k flags mxcsr) (exec i s) := by
  have hmasked (hf : i.form ≠ .f1) {w : Nat} (tmp : BitVec w) :
      writeMasked i.form tmp i.dst i.writemask (s.withUnwritten k flags mxcsr) =
        mapNext (·.withUnwritten k flags mxcsr) (writeMasked i.form tmp i.dst i.writemask s) :=
    writeMasked_withUnwritten hac (fun _ => enabled_withUnwritten (hk hf) flags mxcsr) tmp i.dst
  cases i with
  | vextracti128 dst src imm => exact checked_withUnwritten (writeWhole_withUnwritten hac _ dst)
  | vextracti32x4V256 dst src imm wm => exact checked_withUnwritten (hmasked nofun _)
  | vextracti32x4V512 dst src imm wm => exact checked_withUnwritten (hmasked nofun _)
  | vextracti64x2V256 dst src imm wm => exact checked_withUnwritten (hmasked nofun _)
  | vextracti64x2V512 dst src imm wm => exact checked_withUnwritten (hmasked nofun _)
  | vextracti32x8 dst src imm wm => exact checked_withUnwritten (hmasked nofun _)
  | vextracti64x4 dst src imm wm => exact checked_withUnwritten (hmasked nofun _)

/-! ### No instruction writes them, so they can be replaced one by one -/

theorem mapNext_congr {g g' : State → State} {r : Result} (h : ∀ t, r = .next t → g t = g' t) :
    mapNext g r = mapNext g' r := by
  cases r with
  | next t => exact congrArg Host.Outcome.next (h t rfl)
  | fault f => rfl
  | refused r => rfl

/-- No instruction writes an opmask register, a flag or MXCSR (rules R23, R27, R28). -/
theorem exec_next_unwritten {i : Instr} {s t : State} (h : exec i s = .next t) :
    t.k = s.k ∧ t.rflags = s.rflags ∧ t.mxcsr = s.mxcsr := by
  rw [(exec_next h).2.eq_update]
  exact ⟨rfl, rfl, rfl⟩

/-- Settles O47: the flags and MXCSR stay as they are, and the enables of the elements are the same. -/
theorem otherOpmaskBitsDoNotMatter : Obligations.OtherOpmaskBitsDoNotMatter := by
  intro i s k hk
  have hexec := exec_withUnwritten (flags := s.rflags) (mxcsr := s.mxcsr) hk rfl
  refine hexec.trans (mapNext_congr fun t ht => ?_)
  obtain ⟨-, hflags, hmxcsr⟩ := exec_next_unwritten ht
  rw [State.withUnwritten, ← hflags, ← hmxcsr]

/-- Settles O48: the opmask registers stay as they are, and of the flags only AC is read. -/
theorem flagsAndMxcsrDoNotMatter : Obligations.FlagsAndMxcsrDoNotMatter := by
  intro i s flags mxcsr hac
  have hexec := exec_withUnwritten (i := i) (mxcsr := mxcsr) (fun _ => SameEnables.refl _ _ s) hac
  refine hexec.trans (mapNext_congr fun t ht => ?_)
  obtain ⟨hk, -, -⟩ := exec_next_unwritten ht
  rw [State.withUnwritten, ← hk]

end Sys2Proof.Machine

/-! ## The conditions made of control and feature bits, and the hardware after RESET -/

namespace Sys2Proof.Machine

/-- A field of ones is one in each of its bits. -/
theorem extractLsb'_eq_allOnes_iff {w : Nat} (x : BitVec w) (start len : Nat) :
    x.extractLsb' start len = BitVec.allOnes len ↔ ∀ b : Fin len, x.getLsbD (start + b) = true := by
  constructor
  · intro h b
    have hbit := congrArg (·.getLsbD b) h
    simpa using hbit
  · intro h
    apply BitVec.eq_of_getLsbD_eq
    intro b hb
    simpa [hb] using h ⟨b, hb⟩

/-! ### The enables (rule R30) -/

theorem osAvx_iff {s : State} :
    s.osAvx = true ↔ s.xcr0.getLsbD 1 = true ∧ s.xcr0.getLsbD 2 = true ∧ s.cr4.getLsbD 18 = true := by
  have hfield : s.xcr0.extractLsb' 1 2 = 0b11 ↔ s.xcr0.getLsbD 1 = true ∧ s.xcr0.getLsbD 2 = true :=
    (extractLsb'_eq_allOnes_iff s.xcr0 1 2).trans (by simp [Fin.forall_fin_succ])
  rw [State.osAvx, Bool.and_eq_true, beq_iff_eq, hfield, State.cr4OSXSAVE, and_assoc]

theorem osAvx512_iff {s : State} :
    s.osAvx512 = true ↔ s.osAvx = true ∧ s.xcr0.getLsbD 5 = true ∧ s.xcr0.getLsbD 6 = true ∧
      s.xcr0.getLsbD 7 = true := by
  have hfield : s.xcr0.extractLsb' 5 3 = 0b111 ↔
      s.xcr0.getLsbD 5 = true ∧ s.xcr0.getLsbD 6 = true ∧ s.xcr0.getLsbD 7 = true :=
    (extractLsb'_eq_allOnes_iff s.xcr0 5 3).trans (by simp [Fin.forall_fin_succ])
  rw [State.osAvx512, Bool.and_eq_true, beq_iff_eq, hfield]

theorem acEnabled_iff {s : State} :
    s.acEnabled = true ↔ s.cr0.getLsbD 18 = true ∧ s.rflags.getLsbD 18 = true ∧ s.cpl = 3 := by
  rw [State.acEnabled, Bool.and_eq_true, Bool.and_eq_true, beq_iff_eq, and_assoc, State.cr0AM, State.rflagsAC]

/-- Settles O50: each condition is read off its control-register bits. -/
theorem controlConditionsReadTheirBits : Obligations.ControlConditionsReadTheirBits :=
  fun _ => ⟨osAvx_iff, osAvx512_iff, Iff.rfl, acEnabled_iff⟩

/-- Settles O58: the record is made of these very bits (rule R29). -/
theorem cpuidEnumeratesTheFeatureFlags : Obligations.CpuidEnumeratesTheFeatureFlags :=
  fun _ => rfl

/-! ### Real-address mode (rules R35, R144) -/

theorem checked_of_realAddress {f : Form} {s : State} (hmode : s.mode = .realAddress) (go : Result) :
    checked f s go = .fault .ud := by
  simp only [checked, hmode, raise]

/-- Every instruction makes its form's checks before anything else (rule R114). -/
theorem exec_eq_checked (i : Instr) (s : State) : ∃ go, exec i s = checked i.form s go := by
  cases i with
  | vextracti128 | vextracti32x4V256 | vextracti32x4V512 | vextracti64x2V256 | vextracti64x2V512 | vextracti32x8
  | vextracti64x4 => exact ⟨_, rfl⟩

theorem exec_of_realAddress {i : Instr} {s : State} (hmode : s.mode = .realAddress) : exec i s = .fault .ud := by
  obtain ⟨go, hgo⟩ := exec_eq_checked i s
  rw [hgo, checked_of_realAddress hmode]

/-- Settles O45: the hardware after RESET is in real-address mode, where no form is defined. -/
theorem everyFormRaisesUDAtPowerUp : Obligations.EveryFormRaisesUDAtPowerUp :=
  fun _ _ => exec_of_realAddress rfl

end Sys2Proof.Machine

/-! ## Every form is the masked write of its block -/

namespace Sys2Proof.Machine

/-- The block of the full source register that the immediate selects (rules R100 to R102). -/
def selectedBlock : (f : Form) → Zmm → Byte → BitVec (extractWidth f)
  | .f1, src, imm => sel128 (vectorLength .f1) src imm
  | .f2, src, imm => sel128 (vectorLength .f2) src imm
  | .f3, src, imm => sel128 (vectorLength .f3) src imm
  | .f4, src, imm => sel128 (vectorLength .f4) src imm
  | .f5, src, imm => sel128 (vectorLength .f5) src imm
  | .f6, src, imm => sel256 src imm
  | .f7, src, imm => sel256 src imm

theorem elementWidth_pos (f : Form) : 0 < elementWidth f := by cases f <;> decide

theorem footprint_pos (f : Form) : 0 < extractWidth f / 8 := by cases f <;> decide

/-- The elements make up the block. -/
theorem elementCount_mul_elementWidth (f : Form) : elementCount f * elementWidth f = extractWidth f := by
  cases f <;> rfl

section DestinationWrite

variable {f : Form} {w : Nat} {wm : Writemask}

theorem writeMasked_mem (tmp : BitVec w) (m : MemOperand) (s : State) :
    writeMasked f tmp (.mem m) wm s = store s (storeAddress s f m) (extractWidth f / 8)
      (writeElements · (storeAddress s f m).toNat (elementWidth f) (s.enabled wm) tmp (elementCount f))
      (nextPc s f (.mem m)) := rfl

theorem writeMasked_reg_unmasked (tmp : BitVec (extractWidth f)) (d : VReg) (s : State) (hwm : wm.aaa = 0) :
    writeMasked f tmp (.reg d) wm s =
      .next ((s.setZmm d (tmp.setWidth Config.maxVL)).setPc (nextPc s f (.reg d))) := by
  have hall := blend_all (elementWidth_pos f) (elementCount_mul_elementWidth f).ge
    (fun j _ => enabled_of_aaa_zero s hwm j) wm.z tmp ((s.getZmm d).extractLsb' 0 (extractWidth f))
  simp only [writeMasked, writeRegMasked, hall]

end DestinationWrite

theorem writeElements_one {w : Nat} (mem : Memory) (addr e : Nat) {en : Nat → Bool} (tmp : BitVec w)
    (h : en 0 = true) :
    writeElements mem addr e en tmp 1 = Memory.writeLE mem addr (e / 8) (tmp.extractLsb' 0 e) := by
  simp [writeElements, h]

/-- Form F1 writes as an EVEX form without writemask does: its block is one element (rules R82, R120). -/
theorem writeWhole_eq_writeMasked (tmp : BitVec (extractWidth .f1)) (dst : Operand) (s : State) :
    writeWhole tmp dst s = writeMasked .f1 tmp dst ⟨0, false⟩ s := by
  cases dst with
  | reg d => exact (writeMasked_reg_unmasked tmp d s rfl).symm
  | mem m =>
    have hone : elementCount .f1 = 1 := rfl
    have hblock : tmp.extractLsb' 0 128 = tmp := BitVec.extractLsb'_eq_self
    have henabled : s.enabled ⟨0, false⟩ 0 = true := enabled_of_aaa_zero s rfl 0
    rw [writeMasked_mem, hone]
    simp only [writeWhole, elementWidth, writeElements_one _ _ _ tmp henabled, hblock]
    rfl

/-- WHAT exec IS, for every form at once: the form's checks, then the write of the selected block under the
writemask (rules R100, R114, R120 to R126). -/
theorem exec_eq_writeMasked (i : Instr) (s : State) :
    exec i s = checked i.form s
      (writeMasked i.form (selectedBlock i.form (s.getZmm i.src) i.imm) i.dst i.writemask s) := by
  cases i with
  | vextracti128 dst src imm => exact congrArg (checked .f1 s) (writeWhole_eq_writeMasked _ dst s)
  | vextracti32x4V256 | vextracti32x4V512 | vextracti64x2V256 | vextracti64x2V512 | vextracti32x8 | vextracti64x4 =>
    rfl

theorem exec_ready {i : Instr} {s : State} (hready : s.Ready i.form) :
    exec i s = writeMasked i.form (selectedBlock i.form (s.getZmm i.src) i.imm) i.dst i.writemask s := by
  rw [exec_eq_writeMasked, checked_ready _ hready]

end Sys2Proof.Machine

/-! ## Stores: the address, the conditions on the footprint, and the answer -/

namespace Sys2Proof.Machine

/-! ### The effective address (rules R60, R67, R72) -/

/-- An instruction of the RIP-relative form is 10 bytes long under VEX and 11 under EVEX (rule R60). -/
theorem nextPc_ripRel (s : State) (f : Form) (d : BitVec 32) :
    nextPc s f (.mem (.ripRel d)) = s.pc + (if f = .f1 then 10 else 11) := by cases f <;> rfl

theorem ofNat_dispScale (f : Form) :
    BitVec.ofNat 64 f.dispScale = if f = .f1 then 1 else if f = .f6 ∨ f = .f7 then 32 else 16 := by
  cases f <;> rfl

/-- A shift to the left is a product with a power of two, taken as a natural number before it becomes a word. -/
theorem shiftLeft_eq_mul_natCast (v : Word) (k : Nat) : v <<< k = v * ((1 <<< k : Nat) : Word) := by
  apply BitVec.eq_of_toNat_eq
  simp [Nat.shiftLeft_eq]

theorem indexValue_eq_mul (s : State) (index : GReg) (scale : BitVec 2) :
    indexValue s index scale =
      (if index = 4 then 0 else s.getGpr index * ((1 <<< scale.toNat : Nat) : Word) : Word) := by
  rw [indexValue, shiftLeft_eq_mul_natCast]

/-- Settles O30: each addressing form's sum, with the length, the factor and the index written out. -/
theorem effectiveAddressFollowsTheAddressingForm : Obligations.EffectiveAddressFollowsTheAddressingForm := by
  intro s f b i sc d8 d32
  simp only [storeAddress, effectiveAddress, dispValue, nextPc_ripRel, ofNat_dispScale, indexValue_eq_mul, add_zero,
    and_self]

/-! ### Overlap and admission, byte by byte (rules R48, R49, R55) -/

/-- The addresses of a footprint are its base plus an offset below its size. -/
theorem forall_footprint_iff {P : Nat → Prop} {addr n : Nat} :
    (∀ a, addr ≤ a → a < addr + n → P a) ↔ ∀ q < n, P (addr + q) := by
  constructor
  · intro h q hq
    exact h (addr + q) (by omega) (by omega)
  · intro h a hlo hhi
    obtain ⟨q, rfl⟩ := Nat.exists_eq_add_of_le hlo
    exact h q (by omega)

theorem admits_write_iff {r : Region} {a : Nat} :
    r.admits .write a = true ↔ r.base ≤ a ∧ a < r.base + r.size ∧ r.writable = true := by
  simp [Region.admits, and_assoc]

theorem admits_fetch_iff {r : Region} {a : Nat} :
    r.admits .fetch a = true ↔ r.base ≤ a ∧ a < r.base + r.size ∧ r.fetchable = true := by
  simp [Region.admits, and_assoc]

/-- Settles O43: each condition over addresses is the model's condition over offsets. -/
theorem footprintConditionsAreByteByByte : Obligations.FootprintConditionsAreByteByByte := by
  refine ⟨?overlap, ?admission, fun _ _ => holds_iff, fun _ _ => ⟨admits_write_iff, admits_fetch_iff⟩⟩
  case overlap =>
    intro t addr n hn
    rw [forall_footprint_iff, overlaps_eq_false_iff hn]
  case admission =>
    intro s addr n kind
    rw [forall_footprint_iff, memAdmit_eq_true_iff]

/-! ### What a store answers, by the conditions on its footprint -/

section Store

variable {s : State} {ea : Word} {n : Nat} (write : Memory → Memory) (next : Word)

theorem store_of_overlaps (h : s.text.overlaps ea.toNat n = true) :
    store s ea n write next = .refused .storeIntoText := by rw [store, if_pos h]

theorem store_of_not_admitted (hclear : s.text.overlaps ea.toNat n = false)
    (hadmit : s.memAdmit ea.toNat n .write = false) : store s ea n write next = .fault (.memFault ea) := by
  simp [store, hclear, hadmit, raise]

/-- With the footprint clear and admitted, alignment alone decides (rule R42). -/
theorem store_of_admitted (hclear : s.text.overlaps ea.toNat n = false)
    (hadmit : s.memAdmit ea.toNat n .write = true) :
    store s ea n write next = if s.alignmentFaults ea n then .fault (.memFault ea)
      else .next { s with mem := write s.mem, pc := next } := by
  simp [store, hclear, hadmit, raise]

theorem alignmentFaults_of_aligned (h : ea.toNat % n = 0) : s.alignmentFaults ea n = false := by
  simp [State.alignmentFaults, h]

end Store

/-! ### What an instruction with a memory destination answers -/

/-- WHAT exec DOES WITH A MEMORY DESTINATION once the form's checks pass: one store of the whole block's footprint,
whatever the writemask (rules R45, R106). -/
theorem exec_mem {i : Instr} {m : MemOperand} {s : State} (hdst : i.dst = .mem m) (hready : s.Ready i.form) :
    ∃ write next, exec i s = store s (storeAddress s i.form m) (extractWidth i.form / 8) write next := by
  rw [exec_ready hready, hdst, writeMasked_mem]
  exact ⟨_, _, rfl⟩

theorem overlaps_of_footprintClear {s : State} {f : Form} {ea : Word}
    (h : s.FootprintClear ea (extractWidth f / 8)) : s.text.overlaps ea.toNat (extractWidth f / 8) = false :=
  (overlaps_eq_false_iff (footprint_pos f)).mpr h

theorem exec_mem_not_admitted {i : Instr} {m : MemOperand} {s : State} (hdst : i.dst = .mem m)
    (hready : s.Ready i.form) (hclear : s.FootprintClear (storeAddress s i.form m) (extractWidth i.form / 8))
    (hadmit : s.memAdmit (storeAddress s i.form m).toNat (extractWidth i.form / 8) .write ≠ true) :
    exec i s = .fault (.memFault (storeAddress s i.form m)) := by
  obtain ⟨write, next, hexec⟩ := exec_mem hdst hready
  rw [hexec, store_of_not_admitted _ _ (overlaps_of_footprintClear hclear) (Bool.eq_false_iff.mpr hadmit)]

/-- Settles O40: admission asks for every byte of the footprint, so one byte that no region admits is enough. -/
theorem wholeFootprintIsCheckedWhateverTheMask : Obligations.WholeFootprintIsCheckedWhateverTheMask := by
  intro i m s q hdst hready hclear hq hbyte
  refine exec_mem_not_admitted hdst hready hclear fun hadmit => ?_
  obtain ⟨-, hbytes⟩ := memAdmit_eq_true_iff.mp hadmit
  obtain ⟨r, hr, hadmits⟩ := hbytes q hq
  simp [hbyte r hr] at hadmits

/-- Settles O41: what is admitted fits the address space. -/
theorem footprintPastTheTopFaults : Obligations.FootprintPastTheTopFaults := by
  intro i m s hdst hready hclear hpast
  exact exec_mem_not_admitted hdst hready hclear fun hadmit => absurd (memAdmit_fits hadmit) (Nat.not_le.mpr hpast)

/-- Settles O42: the store asks for overlap with the text before it asks for admission. -/
theorem storeIntoTheProgramTextIsRefused : Obligations.StoreIntoTheProgramTextIsRefused := by
  intro i m s a hdst hready hholds hlo hhi
  obtain ⟨write, next, hexec⟩ := exec_mem hdst hready
  rw [hexec]
  refine store_of_overlaps _ _ (Bool.of_not_eq_false fun hclear => ?_)
  simp [not_holds_of_not_overlaps hclear hlo hhi] at hholds

/-- Settles O44: an aligned address never faults on alignment, and nothing else is left to fault on. -/
theorem alignmentCheckConcernsMisalignedStoresOnly : Obligations.AlignmentCheckConcernsMisalignedStoresOnly := by
  intro i m s hdst hready hclear hadmit
  obtain ⟨write, next, hexec⟩ := exec_mem hdst hready
  rw [hexec, store_of_admitted _ _ (overlaps_of_footprintClear hclear) (memAdmit_eq_true_iff.mpr hadmit)]
  constructor
  · intro haligned
    exact ⟨_, if_neg (by simp [alignmentFaults_of_aligned haligned])⟩
  · cases s.alignmentFaults (storeAddress s i.form m) (extractWidth i.form / 8) with
    | false => exact .inl ⟨_, rfl⟩
    | true => exact .inr rfl

end Sys2Proof.Machine

/-! ## No form reads data memory -/

namespace Sys2Proof.Machine

/-! ### Writes that do not look at memory -/

/-- What a write puts into memory does not depend on what memory held: each byte afterwards is the one it leaves in
a memory that holds nothing, and where it leaves nothing there, the byte from before. -/
def WritesBlindly (write : Memory → Memory) : Prop :=
  ∀ mem a, Memory.read (write mem) a = (Memory.read (write []) a).or (Memory.read mem a)

theorem writesBlindly_id : WritesBlindly id := fun _ _ => rfl

theorem writesBlindly_writeElements {w : Nat} (f : Form) (addr : Nat) (en : Nat → Bool) (tmp : BitVec w) (n : Nat) :
    WritesBlindly (writeElements · addr (elementWidth f) en tmp n) := by
  obtain ⟨c, hc, hwidth, -⟩ := elementWidth_eq f
  intro mem a
  simp only [hwidth, read_writeElements _ _ hc]
  split <;> rfl

/-! ### Operations that do not look at memory (rule R43) -/

/-- Other contents of memory in place of the state's own. -/
def State.withMem (s : State) (mem : Memory) : State := { s with mem := mem }

section WithMem

variable (s : State) (mem : Memory)

@[simp] theorem withMem_mode : (s.withMem mem).mode = s.mode := rfl
@[simp] theorem withMem_getZmm (r : VReg) : (s.withMem mem).getZmm r = s.getZmm r := rfl
@[simp] theorem withMem_osTs : (s.withMem mem).osTs = s.osTs := rfl

@[simp] theorem withMem_featureOk (f : Form) : (s.withMem mem).featureOk f = s.featureOk f := by cases f <;> rfl

@[simp] theorem withMem_alignmentFaults (ea : Word) (n : Nat) :
    (s.withMem mem).alignmentFaults ea n = s.alignmentFaults ea n := rfl

@[simp] theorem withMem_enabled (wm : Writemask) : (s.withMem mem).enabled wm = s.enabled wm := rfl

@[simp] theorem withMem_nextPc (f : Form) (dst : Operand) : nextPc (s.withMem mem) f dst = nextPc s f dst := rfl

@[simp] theorem withMem_storeAddress (f : Form) (m : MemOperand) :
    storeAddress (s.withMem mem) f m = storeAddress s f m := by cases m <;> rfl

variable {s}

theorem store_withMem (ea : Word) (n : Nat) (write : Memory → Memory) (next : Word) :
    store (s.withMem mem) ea n write next = mapNext (·.withMem (write mem)) (store s ea n write next) := by
  cases hclear : s.text.overlaps ea.toNat n with
  | true => rw [store_of_overlaps _ _ hclear, store_of_overlaps (s := s.withMem mem) _ _ hclear]; rfl
  | false =>
    cases hadmit : s.memAdmit ea.toNat n .write with
    | false =>
      rw [store_of_not_admitted _ _ hclear hadmit, store_of_not_admitted (s := s.withMem mem) _ _ hclear hadmit]
      rfl
    | true =>
      rw [store_of_admitted _ _ hclear hadmit, store_of_admitted (s := s.withMem mem) _ _ hclear hadmit,
        withMem_alignmentFaults]
      cases s.alignmentFaults ea n <;> rfl

theorem checked_withMem {f : Form} {go go' : Result} {g : State → State} (hgo : go' = mapNext g go) :
    checked f (s.withMem mem) go' = mapNext g (checked f s go) := by
  simp only [checked, withMem_mode, withMem_featureOk, withMem_osTs, hgo]
  cases s.mode with
  | realAddress | virtual8086 | legacy32 => rfl
  | bits64 => cases s.featureOk f <;> cases s.osTs <;> rfl

variable (s)

/-- A register destination keeps memory; a memory destination changes it by one blind write. -/
theorem writeMasked_withMem {w : Nat} (f : Form) (tmp : BitVec w) (dst : Operand) (wm : Writemask) :
    ∃ write, WritesBlindly write ∧ ∀ mem, writeMasked f tmp dst wm (s.withMem mem) =
      mapNext (·.withMem (write mem)) (writeMasked f tmp dst wm s) := by
  cases dst with
  | reg d => exact ⟨id, writesBlindly_id, fun _ => rfl⟩
  | mem m =>
    refine ⟨_, writesBlindly_writeElements f (storeAddress s f m).toNat (s.enabled wm) tmp (elementCount f),
      fun mem => ?_⟩
    simp only [writeMasked_mem, withMem_storeAddress, withMem_nextPc, withMem_enabled, store_withMem]

end WithMem

/-- WHAT exec READS of memory: nothing (rule R43). It answers the same whatever memory holds, and leaves memory as
one blind write does. -/
theorem exec_withMem (i : Instr) (s : State) :
    ∃ write, WritesBlindly write ∧ ∀ mem, exec i (s.withMem mem) = mapNext (·.withMem (write mem)) (exec i s) := by
  obtain ⟨write, hblind, hwrite⟩ :=
    writeMasked_withMem s i.form (selectedBlock i.form (s.getZmm i.src) i.imm) i.dst i.writemask
  refine ⟨write, hblind, fun mem => ?_⟩
  rw [exec_eq_writeMasked, exec_eq_writeMasked, withMem_getZmm]
  exact checked_withMem mem (hwrite mem)

/-- A run that completes does so with any memory, and the states reached differ in memory only. -/
theorem exec_withMem_next {i : Instr} {s t : State} (ht : exec i s = .next t) :
    ∃ write, WritesBlindly write ∧ ∀ mem, exec i (s.withMem mem) = .next (t.withMem (write mem)) := by
  obtain ⟨write, hblind, hexec⟩ := exec_withMem i s
  rw [ht] at hexec
  exact ⟨write, hblind, hexec⟩

theorem mapNext_mapNext (g g' : State → State) (r : Result) : mapNext g (mapNext g' r) = mapNext (g ∘ g') r := by
  cases r <;> rfl

/-- Settles O49: both clauses compare runs that differ in memory only, so one blind write explains them. -/
theorem dataMemoryIsNotRead : Obligations.DataMemoryIsNotRead := by
  constructor
  · intro i s mem
    obtain ⟨write, -, hexec⟩ := exec_withMem i s
    have hmem : exec i { s with mem := mem } = _ := hexec mem
    rw [hmem, mapNext_mapNext]
    rfl
  · intro i s t t₀ ht ht₀ a
    obtain ⟨write, hblind, hexec⟩ := exec_withMem_next ht
    have hown : t = t.withMem (write s.mem) := Host.Outcome.next.inj (ht.symm.trans (hexec s.mem))
    have hempty : t₀ = t.withMem (write []) := Host.Outcome.next.inj (ht₀.symm.trans (hexec []))
    rw [hown, hempty]
    exact hblind s.mem a

end Sys2Proof.Machine

/-! ## Without a writemask, a block is stored whole -/

namespace Sys2Proof.Machine

/-- With every element enabled, the element-wise store leaves the bytes of one little-endian write. -/
theorem read_writeElements_all {w : Nat} (mem : Memory) (addr : Nat) (f : Form) {en : Nat → Bool}
    (hen : ∀ j, en j = true) (tmp : BitVec w) (a : Nat) :
    Memory.read (writeElements mem addr (elementWidth f) en tmp (elementCount f)) a =
      Memory.read (Memory.writeLE mem addr (extractWidth f / 8) tmp) a := by
  obtain ⟨c, hc, hwidth, hcount⟩ := elementWidth_eq f
  rw [hwidth, read_writeElements _ _ hc, hcount, Memory.read_writeLE]
  simp only [hen, and_true]

theorem writeMasked_mem_unmasked {f : Form} {wm : Writemask} {m : MemOperand} {s : State} {w : Nat} (tmp : BitVec w)
    (hwm : wm.aaa = 0) (hstore : s.StoreReady (storeAddress s f m) (extractWidth f / 8)) :
    ∃ u, writeMasked f tmp (.mem m) wm s = .next u ∧ ∀ a, Memory.read u.mem a =
      Memory.read (Memory.writeLE s.mem (storeAddress s f m).toNat (extractWidth f / 8) tmp) a :=
  ⟨_, (writeMasked_mem tmp m s).trans (store_ready (footprint_pos f) _ _ hstore),
    read_writeElements_all s.mem _ f (enabled_of_aaa_zero s hwm) tmp⟩

theorem getXmm_setZmm_setWidth (s : State) (d : VReg) (v : BitVec 128) :
    (s.setZmm d (v.setWidth Config.maxVL)).getXmm d = v := by
  rw [State.getXmm, getZmm_setZmm_same]
  apply BitVec.eq_of_getLsbD_eq
  intro b hb
  simp [hb, show b < 512 by omega]

/-- Settles O54: without a writemask the register's low 128 bits are the block, and the bytes stored are its own. -/
theorem extractThenStoreEqualsDirectStore : Obligations.ExtractThenStoreEqualsDirectStore := by
  intro src d imm m s hready hstore
  obtain ⟨u, hu, hbytes⟩ :=
    writeMasked_mem_unmasked (f := .f3) (wm := ⟨0, false⟩) (selectedBlock .f3 (s.getZmm src) imm) rfl hstore
  refine ⟨_, u, (exec_ready hready).trans (writeMasked_reg_unmasked _ d s rfl), (exec_ready hready).trans hu,
    fun a => ?_⟩
  have hblock := getXmm_setZmm_setWidth s d (selectedBlock .f3 (s.getZmm src) imm)
  rw [hbytes]
  exact congrArg (fun v : BitVec 128 => Memory.read (Memory.writeLE s.mem _ 16 v) a) hblock.symm

end Sys2Proof.Machine

/-! ## The decoder reads what the encoder writes -/

namespace Sys2Proof

/-! ### Fields of a byte and byte order (rules R40, R62, R64, R65) -/

/-- The fields of a byte written as three fields: ModRM and SIB are such bytes. -/
theorem fields_of_append_append {u v w : Nat} (hi : BitVec u) (mid : BitVec v) (lo : BitVec w) :
    (hi ++ mid ++ lo).extractLsb' (w + v) u = hi ∧ (hi ++ mid ++ lo).extractLsb' w v = mid ∧
      (hi ++ mid ++ lo).extractLsb' 0 w = lo := by
  refine ⟨?_, ?_, BitVec.extractLsb'_append_eq_right⟩
  · rw [BitVec.extractLsb'_append_eq_of_le (Nat.le_add_right w v), Nat.add_sub_cancel_left,
      BitVec.extractLsb'_append_eq_left]
  · rw [BitVec.extractLsb'_append_eq_of_le le_rfl, Nat.sub_self, BitVec.extractLsb'_append_eq_right]

theorem bit_eq_one_iff {b : Byte} {i : Nat} : b.bit i = 1 ↔ b.getLsbD i = true :=
  (Machine.extractLsb'_eq_allOnes_iff b i 1).trans (by simp)

theorem bit_ne_one_iff {b : Byte} {i : Nat} : b.bit i ≠ 1 ↔ b.bit i = 0 := by
  generalize b.bit i = x
  revert x
  decide

theorem bit_eq_zero_iff {b : Byte} {i : Nat} : b.bit i = 0 ↔ b.getLsbD i = false := by
  rw [← bit_ne_one_iff, ne_eq, bit_eq_one_iff, Bool.not_eq_true]

theorem modrmByte_fields (mod : BitVec 2) (reg rm : BitVec 3) : (modrmByte mod reg rm).extractLsb' 6 2 = mod ∧
    (modrmByte mod reg rm).extractLsb' 3 3 = reg ∧ (modrmByte mod reg rm).extractLsb' 0 3 = rm :=
  fields_of_append_append mod reg rm

theorem sibByte_fields (scale : BitVec 2) (index base : BitVec 3) :
    (sibByte scale index base).extractLsb' 6 2 = scale ∧ (sibByte scale index base).extractLsb' 3 3 = index ∧
      (sibByte scale index base).extractLsb' 0 3 = base :=
  fields_of_append_append scale index base

/-- Bit 3 and the low bits make up the number of a general register (rules R66, R72). -/
theorem high_append_low (b : GReg) : b.extractLsb' 3 1 ++ b.low = b :=
  BitVec.extractLsb'_append_extractLsb'

/-- Bits 4, 3 and the low bits make up the number of a vector register (rules R70, R71). -/
theorem vreg_fields_append (r : VReg) : r.extractLsb' 4 1 ++ r.extractLsb' 3 1 ++ r.extractLsb' 0 3 = r := by
  rw [BitVec.extractLsb'_append_extractLsb'_eq_extractLsb' (by rfl)]
  exact BitVec.extractLsb'_append_extractLsb'

/-- Form F1 reaches only registers with bit 4 clear (rule R22). -/
theorem extract_bit4_of_lt {r : VReg} (h : r.toNat < 16) : r.extractLsb' 4 1 = 0#1 := by
  apply BitVec.eq_of_toNat_eq
  simp [Nat.shiftRight_eq_div_pow, Nat.div_eq_of_lt h]

theorem le32_extract (d : BitVec 32) :
    le32 (d.extractLsb' 0 8) (d.extractLsb' 8 8) (d.extractLsb' 16 8) (d.extractLsb' 24 8) = d := by
  unfold le32
  rw [BitVec.extractLsb'_append_extractLsb'_eq_extractLsb' (by rfl),
    BitVec.extractLsb'_append_extractLsb'_eq_extractLsb' (by rfl),
    BitVec.extractLsb'_append_extractLsb'_eq_extractLsb' (by rfl)]
  exact BitVec.extractLsb'_eq_self

/-! ### Displacement, addressing form and tail (rules R60, R65, R66, R67) -/

@[simp] theorem takeDisp32_bytes32 (d : BitVec 32) (rest : List Byte) :
    takeDisp32 (bytes32 d ++ rest) = some (d, rest) := by
  simp only [bytes32, List.cons_append, List.nil_append, takeDisp32, le32_extract]

@[simp] theorem takeDisp_bytes (d : Disp) (rest : List Byte) : takeDisp d.mod (d.bytes ++ rest) = some (d, rest) := by
  cases d with
  | none => rfl
  | disp8 d => rfl
  | disp32 d => simp [Disp.mod, Disp.bytes, takeDisp]

theorem mod_eq_zero_iff {d : Disp} : d.mod = 0 ↔ d = .none := by cases d <;> simp [Disp.mod]

theorem mod_ne_three (d : Disp) : d.mod ≠ 3 := by cases d <;> simp [Disp.mod]

/-- Reading a SIB byte takes its fields apart, and a base of 101 without displacement names no base (rule R66). -/
theorem takeSib_sibByte (mod : BitVec 2) (scale : BitVec 2) (index : GReg) (base : BitVec 3) (b : BitVec 1)
    (bytes : List Byte) :
    takeSib mod (index.extractLsb' 3 1) b (sibByte scale index.low base :: bytes) =
      if base = 5 ∧ mod = 0 then (takeDisp32 bytes).map fun (d, rest) => (.sibNoBase index scale d, rest)
      else (takeDisp mod bytes).map fun (d, rest) => (.sib (b ++ base) index scale d, rest) := by
  obtain ⟨hscale, hindex, hbase⟩ := sibByte_fields scale index.low base
  simp only [takeSib, hscale, hindex, hbase, high_append_low]

/-- A memory destination is written with `mod` other than 11 (rule R65). -/
theorem rmFields_mem_mod_ne_three (m : MemOperand) : (Operand.mem m).rmFields.mod ≠ 3 := by
  cases m with
  | ripRel d => simp [Operand.rmFields]
  | base b d => exact mod_ne_three d
  | sib b i sc d => exact mod_ne_three d
  | sibNoBase i sc d => simp [Operand.rmFields]

theorem takeMem_rmFields {m : MemOperand} (hwf : m.wf = true) (rest : List Byte) :
    let r := (Operand.mem m).rmFields
    takeMem r.mod r.rm r.x r.b (r.tail ++ rest) = some (m, rest) := by
  cases m with
  | ripRel d => simp [Operand.rmFields, takeMem]
  | base b d =>
    obtain ⟨hsib, hrip⟩ := wf_base_iff.mp hwf
    have hrip : ¬(b.low = 5 ∧ d.mod = 0) := fun ⟨hlow, hmod⟩ => hrip (mod_eq_zero_iff.mp hmod) hlow
    simp only [Operand.rmFields, takeMem, if_neg hsib, if_neg hrip, takeDisp_bytes, Option.map_some, high_append_low]
  | sib b i sc d =>
    have hbase : ¬(b.low = 5 ∧ d.mod = 0) := fun ⟨hlow, hmod⟩ => wf_sib_iff.mp hwf (mod_eq_zero_iff.mp hmod) hlow
    simp only [Operand.rmFields, takeMem, if_true, List.cons_append, takeSib_sibByte, if_neg hbase, takeDisp_bytes,
      Option.map_some, high_append_low]
  | sibNoBase i sc d => simp [Operand.rmFields, takeMem, takeSib_sibByte]

/-- A destination is read back from its fields; `x4` has to be bit 4 of a register destination (rules R70, R71). -/
theorem takeOperand_rmFields {dst : Operand} {f : Form} {x4 : BitVec 1} (hwf : dst.wf f = true)
    (hx4 : ∀ d, dst = .reg d → x4 = d.extractLsb' 4 1) (rest : List Byte) :
    let r := dst.rmFields
    takeOperand r.mod r.rm x4 r.x r.b (r.tail ++ rest) = some (dst, rest) := by
  cases dst with
  | reg d => simp [Operand.rmFields, takeOperand, hx4 d rfl, vreg_fields_append]
  | mem m =>
    have hread := takeMem_rmFields (m := m) hwf rest
    simp only [takeOperand, if_neg (rmFields_mem_mod_ne_three m), hread, Option.map_some]

theorem takeTail_encodeTail {dst : Operand} {f : Form} {x4 : BitVec 1} (src : VReg) (imm : Byte)
    (hwf : dst.wf f = true) (hx4 : ∀ d, dst = .reg d → x4 = d.extractLsb' 4 1) (rest : List Byte) :
    takeTail x4 dst.rmFields.x dst.rmFields.b (encodeTail dst.rmFields src imm ++ rest) =
      some ⟨src.extractLsb' 0 3, dst, imm, rest⟩ := by
  obtain ⟨hmod, hreg, hrm⟩ := modrmByte_fields dst.rmFields.mod (src.extractLsb' 0 3) dst.rmFields.rm
  simp only [encodeTail, takeTail, List.cons_append, List.append_assoc, List.nil_append, hmod, hreg, hrm,
    takeOperand_rmFields hwf hx4]

/-! ### What the decoder answers behind an opcode of the family (rules R74, R76, R77, R83) -/

/-- The reserved settings of the second VEX payload byte (rules R76 and R77 a). -/
abbrev VexReserved (b2 : Byte) : Prop := b2.bit 2 = 0 ∨ b2.bit 7 = 1 ∨ b2.extractLsb' 3 4 ≠ 0b1111

/-- Behind C4H and an opcode of the family: `#UD` for a reserved setting, else form F1. -/
theorem decode_vex_of_tail {b1 b2 : Byte} {bytes : List Byte} {t : Tail} (hmap : b1.extractLsb' 0 5 = 0b00011)
    (hpp : b2.extractLsb' 0 2 = 0b01) (ht : takeTail 0 (~~~b1.bit 6) (~~~b1.bit 5) bytes = some t) :
    decode (0xC4 :: b1 :: b2 :: 0x39 :: bytes) =
      if VexReserved b2 then .ud else .insn (.vextracti128 t.dst (0#1 ++ ~~~b1.bit 7 ++ t.reg) t.imm) t.rest := by
  rw [decode, if_pos rfl, decodeVex, if_pos ⟨hmap, hpp, rfl⟩, ht]

/-- The writemask fields of the EVEX byte P2 (rule R64). -/
abbrev evexWritemask (p2 : Byte) : Writemask := ⟨p2.extractLsb' 0 3, p2.bit 7 == 1⟩

section Evex

variable {p0 p1 p2 opcode : Byte} {bytes : List Byte} {t : Tail} (hmap : p0.extractLsb' 0 2 = 0b11)
  (hpp : p1.extractLsb' 0 2 = 0b01) (hop : opcode = 0x39 ∨ opcode = 0x3B)
  (ht : takeTail (~~~p0.bit 6) (~~~p0.bit 6) (~~~p0.bit 5) bytes = some t)
include hmap hpp hop ht

/-- Behind an EVEX opcode of the family: `#UD` when opcode, W and L'L select no form, or a setting is reserved. -/
theorem decode_evex_of_reserved
    (h : evexForm opcode (p1.bit 7) (p2.extractLsb' 5 2) = none ∨ evexReserved p0 p1 p2 = true ∨
      (evexWritemask p2).wf t.dst = false) :
    decode (0x62 :: p0 :: p1 :: p2 :: opcode :: bytes) = .ud := by
  have hevex : (0x62 : Byte) ≠ 0xC4 := by decide
  rw [decode, if_neg hevex, if_pos rfl, decodeEvex, if_pos ⟨hmap, hpp, hop⟩, ht]
  cases hform : evexForm opcode (p1.bit 7) (p2.extractLsb' 5 2) with
  | none => rfl
  | some f =>
    have hud : (evexReserved p0 p1 p2 || !(evexWritemask p2).wf t.dst) = true := by
      rcases h with h | h | h
      · rw [hform] at h; cases h
      · rw [h, Bool.true_or]
      · rw [h, Bool.not_false, Bool.or_true]
    exact if_pos hud

/-- Behind an EVEX opcode of the family, with no reserved setting: the instruction of the selected form. -/
theorem decode_evex_of_form {f : Form} (hform : evexForm opcode (p1.bit 7) (p2.extractLsb' 5 2) = some f)
    (hreserved : evexReserved p0 p1 p2 = false) (hwm : (evexWritemask p2).wf t.dst = true) :
    decode (0x62 :: p0 :: p1 :: p2 :: opcode :: bytes) =
      .insn (.ofForm f t.dst (~~~p0.bit 4 ++ ~~~p0.bit 7 ++ t.reg) t.imm (evexWritemask p2)) t.rest := by
  have hevex : (0x62 : Byte) ≠ 0xC4 := by decide
  rw [decode, if_neg hevex, if_pos rfl, decodeEvex, if_pos ⟨hmap, hpp, hop⟩, ht]
  simp only [hform, hreserved, hwm, Bool.not_true, Bool.or_false, Bool.false_eq_true, if_false]

end Evex

/-! ### The payload bytes that the encoder writes (rules R62, R64) -/

/-- The first VEX payload byte with map 0F3A, from the stored fields. -/
def vexB1 (r x b : BitVec 1) : Byte := r ++ x ++ b ++ 0b00011#5

/-- P0 with map 0F3A, from the stored fields. -/
def evexP0 (r x b r' : BitVec 1) : Byte := r ++ x ++ b ++ r' ++ 0b0011#4

/-- P1 with `vvvv` = 1111 and `pp` = 01. -/
def evexP1 (w : BitVec 1) : Byte := w ++ 0b1111101#7

/-- P2 with b = 0 and V' stored as 1. -/
def evexP2 (z : Bool) (ll : BitVec 2) (aaa : KReg) : Byte := BitVec.ofBool z ++ ll ++ 0b01#2 ++ aaa

theorem vexB1_fields : ∀ r x b : BitVec 1, (vexB1 r x b).bit 7 = r ∧ (vexB1 r x b).bit 6 = x ∧
    (vexB1 r x b).bit 5 = b ∧ (vexB1 r x b).extractLsb' 0 5 = 0b00011 := by decide

theorem evexP0_fields : ∀ r x b r' : BitVec 1, (evexP0 r x b r').bit 7 = r ∧ (evexP0 r x b r').bit 6 = x ∧
    (evexP0 r x b r').bit 5 = b ∧ (evexP0 r x b r').bit 4 = r' ∧ (evexP0 r x b r').extractLsb' 0 2 = 0b11 ∧
    (evexP0 r x b r').extractLsb' 2 2 = 0 := by decide

theorem evexP1_fields : ∀ w : BitVec 1, (evexP1 w).bit 7 = w ∧ (evexP1 w).extractLsb' 0 2 = 0b01 ∧
    (evexP1 w).bit 2 = 1 ∧ (evexP1 w).extractLsb' 3 4 = 0b1111 := by decide

theorem evexP2_fields : ∀ (z : Bool) (ll : BitVec 2) (aaa : KReg), evexWritemask (evexP2 z ll aaa) = ⟨aaa, z⟩ ∧
    (evexP2 z ll aaa).extractLsb' 5 2 = ll ∧ (evexP2 z ll aaa).bit 4 = 0 ∧ (evexP2 z ll aaa).bit 3 = 1 := by decide

/-- WHAT evexReserved SAYS, as the settings that the bytes must have (rules R76 a and R77 b, c, e, f). -/
theorem evexReserved_eq_false_iff {p0 p1 p2 : Byte} : evexReserved p0 p1 p2 = false ↔
    p0.extractLsb' 2 2 = 0 ∧ p1.bit 2 ≠ 0 ∧ p1.extractLsb' 3 4 = 0b1111 ∧ p2.bit 4 ≠ 1 ∧ p2.bit 3 ≠ 0 := by
  simp [evexReserved, and_assoc]

/-- WHAT evexReserved SAYS, setting by setting (rules R76 a and R77 b, c, e, f). -/
theorem evexReserved_iff {p0 p1 p2 : Byte} : evexReserved p0 p1 p2 = true ↔
    p0.extractLsb' 2 2 ≠ 0 ∨ p1.getLsbD 2 = false ∨ p1.extractLsb' 3 4 ≠ 0b1111 ∨ p2.getLsbD 4 = true ∨
      p2.getLsbD 3 = false := by
  simp only [evexReserved, Bool.or_eq_true, bne_iff_ne, beq_iff_eq, bit_eq_one_iff, bit_eq_zero_iff, or_assoc]

/-- The payload bytes that the encoder writes have no reserved setting. -/
theorem evexReserved_encoded (r x b r' w : BitVec 1) (z : Bool) (ll : BitVec 2) (aaa : KReg) :
    evexReserved (evexP0 r x b r') (evexP1 w) (evexP2 z ll aaa) = false := by
  obtain ⟨-, -, -, -, -, hzero⟩ := evexP0_fields r x b r'
  obtain ⟨-, -, hone, hvvvv⟩ := evexP1_fields w
  obtain ⟨-, -, hb, hv⟩ := evexP2_fields z ll aaa
  rw [evexReserved_eq_false_iff, hzero, hone, hvvvv, hb, hv]
  decide

/-! ### What selects an EVEX form (rule R73) -/

/-- The field W of an EVEX form's row. -/
def Form.evexW : Form → BitVec 1
  | .f4 | .f5 | .f7 => 1
  | _ => 0

/-- The field L'L of an EVEX form's row. -/
def Form.evexLL : Form → BitVec 2
  | .f2 | .f4 => 0b01
  | _ => 0b10

/-- The opcode byte of a form's row. -/
def Form.opcode : Form → Byte
  | .f6 | .f7 => 0x3B
  | _ => 0x39

theorem Form.opcode_eq (f : Form) : f.opcode = 0x39 ∨ f.opcode = 0x3B := by cases f <;> decide

theorem evexForm_fields {f : Form} (hf : f ≠ .f1) : evexForm f.opcode f.evexW f.evexLL = some f := by
  cases f with
  | f1 => contradiction
  | f2 | f3 | f4 | f5 | f6 | f7 => rfl

/-- The encoder writes the fields that select the form. -/
theorem encode_ofForm {f : Form} (hf : f ≠ .f1) (dst : Operand) (src : VReg) (imm : Byte) (wm : Writemask) :
    encode (.ofForm f dst src imm wm) = encodeEvex f.evexW f.evexLL f.opcode dst src imm wm := by
  cases f with
  | f1 => contradiction
  | f2 | f3 | f4 | f5 | f6 | f7 => rfl

theorem ofForm_self (i : Instr) : Instr.ofForm i.form i.dst i.src i.imm i.writemask = i := by cases i <;> rfl

/-! ### Round trip -/

theorem decode_encodeVex {dst : Operand} {src : VReg} (imm : Byte) (hdst : dst.wf .f1 = true)
    (hsrc : src.wfSrc .f1 = true) (rest : List Byte) :
    decode (encodeVex dst src imm ++ rest) = .insn (.vextracti128 dst src imm) rest := by
  have hsrc4 : src.extractLsb' 4 1 = 0#1 := extract_bit4_of_lt (of_decide_eq_true hsrc)
  have hx4 : ∀ d, dst = .reg d → 0 = d.extractLsb' 4 1 := by
    rintro d rfl
    exact (extract_bit4_of_lt (of_decide_eq_true hdst)).symm
  have ht := takeTail_encodeTail src imm hdst hx4 rest
  obtain ⟨hr, hx, hb, hmap⟩ := vexB1_fields (~~~(src.extractLsb' 3 1)) (~~~dst.rmFields.x) (~~~dst.rmFields.b)
  have hread := decode_vex_of_tail (b2 := 0x7D) hmap (by decide) (by rw [hx, hb, BitVec.not_not, BitVec.not_not, ht])
  have hreserved : ¬VexReserved 0x7D := by decide
  rw [if_neg hreserved, hr, BitVec.not_not, ← hsrc4, vreg_fields_append] at hread
  exact hread

theorem decode_encodeEvex {f : Form} {dst : Operand} {wm : Writemask} (hf : f ≠ .f1) (src : VReg) (imm : Byte)
    (hdst : dst.wf f = true) (hwm : wm.wf dst = true) (rest : List Byte) :
    decode (encodeEvex f.evexW f.evexLL f.opcode dst src imm wm ++ rest) = .insn (.ofForm f dst src imm wm) rest := by
  have hx4 : ∀ d, dst = .reg d → dst.rmFields.x = d.extractLsb' 4 1 := by rintro d rfl; rfl
  have ht := takeTail_encodeTail src imm hdst hx4 rest
  obtain ⟨hr, hx, hb, hr', hmap, -⟩ := evexP0_fields (~~~(src.extractLsb' 3 1)) (~~~dst.rmFields.x)
    (~~~dst.rmFields.b) (~~~(src.extractLsb' 4 1))
  obtain ⟨hw, hpp, -, -⟩ := evexP1_fields f.evexW
  obtain ⟨hmask, hll, -, -⟩ := evexP2_fields wm.z f.evexLL wm.aaa
  have hread := decode_evex_of_form hmap hpp f.opcode_eq
    (by rw [hx, hb, BitVec.not_not, BitVec.not_not, ht]) (by rw [hw, hll, evexForm_fields hf])
    (evexReserved_encoded ..) (by rw [hmask]; exact hwm)
  rw [hr, hr', hmask, BitVec.not_not, BitVec.not_not, vreg_fields_append] at hread
  exact hread

namespace Machine

/-- Settles O1: each part of the decoder reads back what the encoder wrote for it, tail by tail and field by field. -/
theorem decodeOfEncodeGivesTheInstruction : Obligations.DecodeOfEncodeGivesTheInstruction := by
  intro i rest hwf
  simp only [Instr.wf, Bool.and_eq_true] at hwf
  obtain ⟨⟨hdst, hsrc⟩, hwm⟩ := hwf
  by_cases hf : i.form = .f1
  · cases i with
    | vextracti128 dst src imm => exact decode_encodeVex imm hdst hsrc rest
    | _ => cases hf
  · have hread := decode_encodeEvex hf i.src i.imm hdst hwm rest
    rwa [← encode_ofForm hf, ofForm_self] at hread

end Machine

end Sys2Proof

/-! ## Lengths, table rows, and which bytes decode -/

namespace Sys2Proof

/-! ### Lengths (rule R60) -/

theorem prefixLength_eq (f : Form) : f.prefixLength = 3 + if f = .f1 then 0 else 1 := by cases f <;> rfl

theorem tailLength_le (dst : Operand) : dst.tailLength ≤ 5 := by
  rcases dst with d | ⟨_ | ⟨b, _ | _ | _⟩ | ⟨b, i, sc, _ | _ | _⟩ | _⟩ <;> simp [Operand.tailLength, Disp.length]

theorem instr_length_eq (i : Instr) : i.length = (if i.form = .f1 then 0 else 1) + (6 + i.dst.tailLength) := by
  rw [Instr.length, encodedLength, prefixLength_eq]
  omega

theorem instr_length_le_maxLength (i : Instr) : i.length ≤ maxLength := by
  have htail := tailLength_le i.dst
  rw [instr_length_eq, maxLength]
  split <;> omega

theorem encode_length (i : Instr) : (encode i).length = i.length := by
  cases i with
  | vextracti128 => exact Laws.EncodeLength.vextracti128 ..
  | vextracti32x4V256 => exact Laws.EncodeLength.vextracti32x4V256 ..
  | vextracti32x4V512 => exact Laws.EncodeLength.vextracti32x4V512 ..
  | vextracti64x2V256 => exact Laws.EncodeLength.vextracti64x2V256 ..
  | vextracti64x2V512 => exact Laws.EncodeLength.vextracti64x2V512 ..
  | vextracti32x8 => exact Laws.EncodeLength.vextracti32x8 ..
  | vextracti64x4 => exact Laws.EncodeLength.vextracti64x4 ..

theorem encode_length_pos (i : Instr) : 0 < (encode i).length := by
  rw [encode_length, instr_length_eq]
  omega

/-! ### What the opcode byte, W and L'L select (rules R73, R74, R77 d) -/

/-- A selected form's row has the fields that selected it. -/
theorem fields_of_evexForm : ∀ opcode ∈ [(0x39 : Byte), 0x3B], ∀ (w : BitVec 1) (ll : BitVec 2),
    ∀ f ∈ evexForm opcode w ll, opcode = f.opcode ∧ w = f.evexW ∧ ll = f.evexLL := by decide

theorem evexForm_eq_some_iff {opcode : Byte} {w : BitVec 1} {ll : BitVec 2} {f : Form}
    (hop : opcode = 0x39 ∨ opcode = 0x3B) :
    evexForm opcode w ll = some f ↔ f ≠ .f1 ∧ opcode = f.opcode ∧ w = f.evexW ∧ ll = f.evexLL := by
  constructor
  · intro h
    exact ⟨evexForm_ne_f1 h, fields_of_evexForm opcode (by simpa using hop) w ll f h⟩
  · rintro ⟨hf, rfl, rfl, rfl⟩
    exact evexForm_fields hf

theorem evexForm_eq_none {opcode : Byte} (w : BitVec 1) {ll : BitVec 2}
    (h : (opcode = 0x39 ∧ (ll = 0b00 ∨ ll = 0b11)) ∨ (opcode = 0x3B ∧ ll ≠ 0b10)) : evexForm opcode w ll = none := by
  rcases h with ⟨rfl, rfl | rfl⟩ | ⟨rfl, hll⟩
  · rfl
  · rfl
  · have hop : (0x3B : Byte) ≠ 0x39 := by decide
    rw [evexForm, if_neg hop, if_neg hll]

/-! ### The writemask's constraints (rule R77 g, h) -/

theorem writemask_wf_eq_false_iff {w : Writemask} {dst : Operand} :
    w.wf dst = false ↔ w.z = true ∧ (w.aaa = 0 ∨ ¬∃ d, dst = .reg d) := by
  cases dst <;> simp [Writemask.wf]

/-- The destination is a register exactly for `mod` = 11 (rule R65). -/
theorem takeTail_dst_reg_iff {x4 x b : BitVec 1} {modrm : Byte} {l : List Byte} {t : Tail}
    (h : takeTail x4 x b (modrm :: l) = some t) : (∃ d, t.dst = .reg d) ↔ modrm.extractLsb' 6 2 = 3 := by
  simp only [takeTail] at h
  split at h
  · rename_i dst imm rest ho
    injection h with h
    subst h
    unfold takeOperand at ho
    split at ho
    · rename_i hmod
      simp only [Option.some.injEq, Prod.mk.injEq] at ho
      exact iff_of_true ⟨_, ho.1.symm⟩ hmod
    · rename_i hmod
      simp only [Option.map_eq_some_iff, Prod.exists, Prod.mk.injEq] at ho
      obtain ⟨m, _, -, rfl, -⟩ := ho
      exact iff_of_false (by simp) hmod
  · cases h

theorem evexWritemask_wf_eq_false_iff {x4 x b : BitVec 1} {p2 modrm : Byte} {l : List Byte} {t : Tail}
    (h : takeTail x4 x b (modrm :: l) = some t) : (evexWritemask p2).wf t.dst = false ↔
      p2.getLsbD 7 = true ∧ (p2.extractLsb' 0 3 = 0 ∨ modrm.extractLsb' 6 2 ≠ 3) := by
  rw [writemask_wf_eq_false_iff, takeTail_dst_reg_iff h, beq_iff_eq, bit_eq_one_iff]

/-! ### The rows of the opcode table (rule R73) -/

/-- The row of a form, by the fields that select it. -/
def tableRow (f : Form) : OpcodeRow :=
  if f = .f1 then ⟨.f1, [0xC4, 0x03, 0x7D, 0x39], [0xFF, 0x1F, 0xFF, 0xFF]⟩
  else ⟨f, [0x62, 0x03, evexP1 f.evexW, evexP2 false f.evexLL 0 &&& 0x78, f.opcode], [0xFF, 0x0F, 0xFF, 0x78, 0xFF]⟩

theorem eq_tableRow_of_mem : ∀ r ∈ opcodeTable, r = tableRow r.form := by decide

theorem tableRow_form (f : Form) : (tableRow f).form = f := by cases f <;> rfl

theorem matchesPattern_cons_iff {p m : Byte} {ps ms bytes : List Byte} :
    matchesPattern (p :: ps) (m :: ms) bytes = true ↔
      ∃ b bs, bytes = b :: bs ∧ b &&& m = p ∧ matchesPattern ps ms bs = true := by
  cases bytes <;> simp [matchesPattern]

@[simp] theorem matchesPattern_nil (ms bytes : List Byte) : matchesPattern [] ms bytes = true := rfl

@[simp] theorem and_0xFF (b : Byte) : b &&& 0xFF = b := BitVec.and_allOnes

theorem vexB1_matches_iff : ∀ b : Byte, b &&& 0x1F = 0x03 ↔ b.extractLsb' 0 5 = 0b00011 := by decide

theorem vexB2_matches_iff : ∀ b : Byte, b = 0x7D ↔ b.extractLsb' 0 2 = 0b01 ∧ ¬VexReserved b := by decide

theorem evexP0_matches_iff : ∀ b : Byte, b &&& 0x0F = 0x03 ↔ b.extractLsb' 0 2 = 0b11 ∧ b.extractLsb' 2 2 = 0 := by
  decide

theorem evexP1_matches_iff : ∀ (w : BitVec 1) (b : Byte), b = evexP1 w ↔
    b.extractLsb' 0 2 = 0b01 ∧ b.bit 2 ≠ 0 ∧ b.extractLsb' 3 4 = 0b1111 ∧ b.bit 7 = w := by decide

theorem evexP2_matches_iff : ∀ (ll : BitVec 2) (b : Byte), b &&& 0x78 = evexP2 false ll 0 &&& 0x78 ↔
    b.bit 4 ≠ 1 ∧ b.bit 3 ≠ 0 ∧ b.extractLsb' 5 2 = ll := by decide

/-- WHAT MATCHES form F1's row: its opcode with no reserved setting. -/
theorem tableRow_f1_matches_iff {bytes : List Byte} : (tableRow .f1).matches bytes = true ↔
    ∃ b1 b2 tail, bytes = 0xC4 :: b1 :: b2 :: 0x39 :: tail ∧ b1.extractLsb' 0 5 = 0b00011 ∧
      b2.extractLsb' 0 2 = 0b01 ∧ ¬VexReserved b2 := by
  simp only [tableRow, if_true, OpcodeRow.matches, matchesPattern_cons_iff, matchesPattern_nil, and_0xFF,
    vexB1_matches_iff, vexB2_matches_iff]
  constructor
  · rintro ⟨_, _, rfl, rfl, b1, _, rfl, hmap, b2, _, rfl, hb2, _, tail, rfl, rfl, -⟩
    exact ⟨b1, b2, tail, rfl, hmap, hb2⟩
  · rintro ⟨b1, b2, tail, rfl, hmap, hb2⟩
    exact ⟨_, _, rfl, rfl, b1, _, rfl, hmap, b2, _, rfl, hb2, _, tail, rfl, rfl, trivial⟩

/-- WHAT MATCHES an EVEX form's row: the fields that select the form, with no reserved setting. -/
theorem tableRow_evex_matches_iff {f : Form} (hf : f ≠ .f1) {bytes : List Byte} :
    (tableRow f).matches bytes = true ↔
      ∃ p0 p1 p2 tail, bytes = 0x62 :: p0 :: p1 :: p2 :: f.opcode :: tail ∧ p0.extractLsb' 0 2 = 0b11 ∧
        p1.extractLsb' 0 2 = 0b01 ∧ evexReserved p0 p1 p2 = false ∧ p1.bit 7 = f.evexW ∧
        p2.extractLsb' 5 2 = f.evexLL := by
  simp only [tableRow, if_neg hf, OpcodeRow.matches, matchesPattern_cons_iff, matchesPattern_nil, and_0xFF,
    evexP0_matches_iff, evexP1_matches_iff, evexP2_matches_iff, evexReserved_eq_false_iff]
  constructor
  · rintro ⟨_, _, rfl, rfl, p0, _, rfl, ⟨hmap, hzero⟩, p1, _, rfl, ⟨hpp, hone, hvvvv, hw⟩, p2, _, rfl,
      ⟨hb, hv, hll⟩, _, tail, rfl, rfl, -⟩
    exact ⟨p0, p1, p2, tail, rfl, hmap, hpp, ⟨hzero, hone, hvvvv, hb, hv⟩, hw, hll⟩
  · rintro ⟨p0, p1, p2, tail, rfl, hmap, hpp, ⟨hzero, hone, hvvvv, hb, hv⟩, hw, hll⟩
    exact ⟨_, _, rfl, rfl, p0, _, rfl, ⟨hmap, hzero⟩, p1, _, rfl, ⟨hpp, hone, hvvvv, hw⟩, p2, _, rfl,
      ⟨hb, hv, hll⟩, _, tail, rfl, rfl, trivial⟩

theorem decodeVex_matches_iff {l rest : List Byte} {i : Instr} (h : decodeVex l = .insn i rest) (f : Form) :
    (tableRow f).matches (0xC4 :: l) = true ↔ f = i.form := by
  obtain ⟨b1, b2, bytes, t, rfl, hmap, hpp, -, hreserved, rfl, -⟩ := decodeVex_eq_insn h
  by_cases hf : f = .f1
  · rw [hf, tableRow_f1_matches_iff]
    exact iff_of_true ⟨b1, b2, bytes, rfl, hmap, hpp, hreserved⟩ rfl
  · rw [tableRow_evex_matches_iff hf]
    exact iff_of_false (by simp) hf

theorem decodeEvex_matches_iff {l rest : List Byte} {i : Instr} (h : decodeEvex l = .insn i rest) (f : Form) :
    (tableRow f).matches (0x62 :: l) = true ↔ f = i.form := by
  obtain ⟨p0, p1, p2, opcode, bytes, t, g, rfl, hmap, hpp, hop, -, hform, hreserved, -, rfl, -⟩ :=
    decodeEvex_eq_insn h
  rw [form_ofForm]
  by_cases hf : f = .f1
  · rw [hf, tableRow_f1_matches_iff]
    exact iff_of_false (by simp) (evexForm_ne_f1 hform).symm
  · have hselect : f = g ↔ evexForm opcode (p1.bit 7) (p2.extractLsb' 5 2) = some f := by
      rw [hform, Option.some.injEq, eq_comm]
    rw [tableRow_evex_matches_iff hf, hselect, evexForm_eq_some_iff hop]
    constructor
    · rintro ⟨_, _, _, _, hbytes, -, -, -, hw, hll⟩
      simp only [List.cons.injEq] at hbytes
      obtain ⟨-, rfl, rfl, rfl, rfl, -⟩ := hbytes
      exact ⟨hf, rfl, hw, hll⟩
    · rintro ⟨-, rfl, hw, hll⟩
      exact ⟨p0, p1, p2, bytes, rfl, hmap, hpp, hreserved, hw, hll⟩

/-! ### Bytes that match a row decode (rules R73, R77 g and h, R83) -/

/-- Whether a tail is whole does not depend on the register numbers that go with it. -/
theorem exists_takeTail {l : List Byte} (h : (takeTail 0 0 0 l).isSome = true) (x4 x b : BitVec 1) :
    ∃ t, takeTail x4 x b l = some t := by
  have hrest := congrArg Option.isSome (takeTail_rest x4 x b 0 0 0 l)
  rw [Option.isSome_map, Option.isSome_map, h] at hrest
  exact Option.isSome_iff_exists.mp hrest

theorem decode_of_matches_f1 {bytes : List Byte} (hmatch : (tableRow .f1).matches bytes = true)
    (hwhole : (takeTail 0 0 0 (bytes.drop 4)).isSome = true) :
    ∃ i rest, decode bytes = .insn i rest ∧ i.form = .f1 := by
  obtain ⟨b1, b2, tail, rfl, hmap, hpp, hreserved⟩ := tableRow_f1_matches_iff.mp hmatch
  obtain ⟨t, ht⟩ := exists_takeTail (l := tail) hwhole 0 (~~~b1.bit 6) (~~~b1.bit 5)
  exact ⟨_, _, by rw [decode_vex_of_tail hmap hpp ht, if_neg hreserved], rfl⟩

theorem decode_of_matches_evex {f : Form} (hf : f ≠ .f1) {bytes : List Byte}
    (hmatch : (tableRow f).matches bytes = true) (hwhole : (takeTail 0 0 0 (bytes.drop 5)).isSome = true) :
    if (bytes.getD 3 0).getLsbD 7 = true ∧
        ((bytes.getD 3 0).extractLsb' 0 3 = 0 ∨ (bytes.getD 5 0).extractLsb' 6 2 ≠ 3)
    then decode bytes = .ud
    else ∃ i rest, decode bytes = .insn i rest ∧ i.form = f := by
  obtain ⟨p0, p1, p2, tail, rfl, hmap, hpp, hreserved, hw, hll⟩ := (tableRow_evex_matches_iff hf).mp hmatch
  obtain ⟨t, ht⟩ := exists_takeTail (l := tail) hwhole (~~~p0.bit 6) (~~~p0.bit 6) (~~~p0.bit 5)
  have hform : evexForm f.opcode (p1.bit 7) (p2.extractLsb' 5 2) = some f := by rw [hw, hll, evexForm_fields hf]
  cases tail with
  | nil => cases hwhole
  | cons modrm tail =>
    have hwm := evexWritemask_wf_eq_false_iff (p2 := p2) ht
    split
    · rename_i hz
      exact decode_evex_of_reserved hmap hpp f.opcode_eq ht (.inr (.inr (hwm.mpr hz)))
    · rename_i hz
      have hwf := eq_true_of_ne_false (mt hwm.mp hz)
      exact ⟨_, _, decode_evex_of_form hmap hpp f.opcode_eq ht hform hreserved hwf, form_ofForm ..⟩

/-! ### Which bytes the decoder refuses (rules R60, R61, R63, R74) -/

/-- Bytes with an opcode of the family behind C4H or 62H, whole or not (rules R61, R63, R74). -/
inductive FamilyOpcode : List Byte → Prop where
  | vex (b1 b2 : Byte) (tail : List Byte) (map : b1.extractLsb' 0 5 = 0b00011) (pp : b2.extractLsb' 0 2 = 0b01) :
      FamilyOpcode (0xC4 :: b1 :: b2 :: 0x39 :: tail)
  | evex (p0 p1 p2 opcode : Byte) (tail : List Byte) (map : p0.extractLsb' 0 2 = 0b11)
      (pp : p1.extractLsb' 0 2 = 0b01) (op : opcode = 0x39 ∨ opcode = 0x3B) :
      FamilyOpcode (0x62 :: p0 :: p1 :: p2 :: opcode :: tail)

theorem decodeVex_refuses_or_family (l : List Byte) :
    decodeVex l = .refused .otherInstruction ∨ (l.length < 3 ∧ decodeVex l = .refused .truncated) ∨
      FamilyOpcode (0xC4 :: l) := by
  unfold decodeVex
  split
  · rename_i b1 b2 opcode tail
    split
    · rename_i h
      obtain ⟨hmap, hpp, rfl⟩ := h
      exact .inr (.inr (.vex b1 b2 tail hmap hpp))
    · exact .inl rfl
  · rename_i hshort
    refine .inr (.inl ⟨?_, rfl⟩)
    match l with
    | [] | [_] | [_, _] => simp
    | b1 :: b2 :: opcode :: tail => exact absurd rfl (hshort b1 b2 opcode tail)

theorem decodeEvex_refuses_or_family (l : List Byte) :
    decodeEvex l = .refused .otherInstruction ∨ (l.length < 4 ∧ decodeEvex l = .refused .truncated) ∨
      FamilyOpcode (0x62 :: l) := by
  unfold decodeEvex
  split
  · rename_i p0 p1 p2 opcode tail
    split
    · rename_i h
      obtain ⟨hmap, hpp, hop⟩ := h
      exact .inr (.inr (.evex p0 p1 p2 opcode tail hmap hpp hop))
    · exact .inl rfl
  · rename_i hshort
    refine .inr (.inl ⟨?_, rfl⟩)
    match l with
    | [] | [_] | [_, _] | [_, _, _] => simp
    | p0 :: p1 :: p2 :: opcode :: tail => exact absurd rfl (hshort p0 p1 p2 opcode tail)

/-- WHAT decode REFUSES before it reads a tail: other instructions, and fewer than five bytes. -/
theorem decode_refuses_or_family (bytes : List Byte) :
    decode bytes = .refused .otherInstruction ∨ (bytes.length < 5 ∧ decode bytes = .refused .truncated) ∨
      FamilyOpcode bytes := by
  cases bytes with
  | nil => exact .inr (.inl ⟨by simp, rfl⟩)
  | cons b l =>
    rw [decode]
    split
    · rename_i hb
      subst hb
      have hl : l.length < 3 → (0xC4 :: l : List Byte).length < 5 := by simp only [List.length_cons]; omega
      exact (decodeVex_refuses_or_family l).imp_right (.imp_left (And.imp_left hl))
    · split
      · rename_i hb
        subst hb
        have hl : l.length < 4 → (0x62 :: l : List Byte).length < 5 := by simp only [List.length_cons]; omega
        exact (decodeEvex_refuses_or_family l).imp_right (.imp_left (And.imp_left hl))
      · exact .inl rfl

/-! ### A tail of seven bytes is never cut short (rule R60) -/

theorem takeDisp32_isSome {l : List Byte} (h : 4 ≤ l.length) : (takeDisp32 l).isSome = true := by
  match l with
  | b0 :: b1 :: b2 :: b3 :: rest => rfl
  | [] | [_] | [_, _] | [_, _, _] => simp at h

theorem takeDisp_isSome (mod : BitVec 2) {l : List Byte} (h : 4 ≤ l.length) : (takeDisp mod l).isSome = true := by
  unfold takeDisp
  split
  · cases l with
    | nil => simp at h
    | cons d rest => rfl
  · split
    · rw [Option.isSome_map, takeDisp32_isSome h]
    · rfl

theorem takeSib_isSome (mod : BitVec 2) (x b : BitVec 1) {l : List Byte} (h : 5 ≤ l.length) :
    (takeSib mod x b l).isSome = true := by
  cases l with
  | nil => simp at h
  | cons sib l =>
    have hl : 4 ≤ l.length := by simpa using h
    simp only [takeSib]
    split
    · rw [Option.isSome_map, takeDisp32_isSome hl]
    · rw [Option.isSome_map, takeDisp_isSome mod hl]

theorem takeOperand_isSome (mod : BitVec 2) (rm : BitVec 3) (x4 x b : BitVec 1) {l : List Byte} (h : 5 ≤ l.length) :
    (takeOperand mod rm x4 x b l).isSome = true := by
  have hl : 4 ≤ l.length := by omega
  unfold takeOperand takeMem
  split
  · rfl
  · rw [Option.isSome_map]
    split
    · exact takeSib_isSome mod x b h
    · split
      · rw [Option.isSome_map, takeDisp32_isSome hl]
      · rw [Option.isSome_map, takeDisp_isSome mod hl]

theorem exists_takeTail_of_length (x4 x b : BitVec 1) {l : List Byte} (h : 7 ≤ l.length) :
    ∃ t, takeTail x4 x b l = some t := by
  cases l with
  | nil => simp at h
  | cons modrm l =>
    have hl : 6 ≤ l.length := by simpa using h
    obtain ⟨⟨dst, rest⟩, ho⟩ := Option.isSome_iff_exists.mp
      (takeOperand_isSome (modrm.extractLsb' 6 2) (modrm.extractLsb' 0 3) x4 x b (l := l) (by omega))
    have hrest := takeOperand_length ho
    cases rest with
    | nil => simp only [List.length_nil] at hrest; omega
    | cons imm rest => exact ⟨⟨modrm.extractLsb' 3 3, dst, imm, rest⟩, by simp only [takeTail, ho]⟩

/-- An opcode of the family with a whole tail is never refused. -/
theorem decode_evex_ne_refused {p0 p1 p2 opcode : Byte} {bytes : List Byte} {t : Tail}
    (hmap : p0.extractLsb' 0 2 = 0b11) (hpp : p1.extractLsb' 0 2 = 0b01) (hop : opcode = 0x39 ∨ opcode = 0x3B)
    (ht : takeTail (~~~p0.bit 6) (~~~p0.bit 6) (~~~p0.bit 5) bytes = some t) (why : DecodeRefusal) :
    decode (0x62 :: p0 :: p1 :: p2 :: opcode :: bytes) ≠ .refused why := by
  by_cases hud : evexForm opcode (p1.bit 7) (p2.extractLsb' 5 2) = none ∨ evexReserved p0 p1 p2 = true ∨
      (evexWritemask p2).wf t.dst = false
  · rw [decode_evex_of_reserved hmap hpp hop ht hud]
    nofun
  · simp only [not_or, Bool.not_eq_true, Bool.not_eq_false] at hud
    obtain ⟨hform, hreserved, hwf⟩ := hud
    obtain ⟨f, hform⟩ := Option.ne_none_iff_exists'.mp hform
    rw [decode_evex_of_form hmap hpp hop ht hform hreserved hwf]
    nofun

theorem decode_vex_ne_refused {b1 b2 : Byte} {bytes : List Byte} {t : Tail} (hmap : b1.extractLsb' 0 5 = 0b00011)
    (hpp : b2.extractLsb' 0 2 = 0b01) (ht : takeTail 0 (~~~b1.bit 6) (~~~b1.bit 5) bytes = some t)
    (why : DecodeRefusal) : decode (0xC4 :: b1 :: b2 :: 0x39 :: bytes) ≠ .refused why := by
  rw [decode_vex_of_tail hmap hpp ht]
  split <;> nofun

namespace Machine

/-- Settles O2, by the bytes between ModRM and the immediate in each addressing form. -/
theorem lengthsFollowTheLengthTable : Obligations.LengthsFollowTheLengthTable := by
  intro i
  rw [instr_length_eq]
  congr 1
  rcases i.dst with d | ⟨_ | ⟨b, _ | _ | _⟩ | ⟨b, i, sc, _ | _ | _⟩ | _⟩ <;> rfl

/-- Settles O11: each word is the encoding of its instruction, so O1 reads it back. -/
theorem writtenOutWordsDecode : Obligations.WrittenOutWordsDecode :=
  have decode_encode (i : Instr) (hwf : i.wf = true) : decode (encode i) = .insn i [] := by
    simpa using decodeOfEncodeGivesTheInstruction i [] hwf
  ⟨decode_encode (.vextracti128 (.reg 1) 2 1) rfl, decode_encode (.vextracti32x4V256 (.reg 1) 2 1 ⟨0, false⟩) rfl,
    decode_encode (.vextracti32x4V512 (.reg 1) 2 1 ⟨0, false⟩) rfl,
    decode_encode (.vextracti64x2V256 (.reg 1) 2 1 ⟨0, false⟩) rfl,
    decode_encode (.vextracti64x2V512 (.reg 1) 2 1 ⟨0, false⟩) rfl,
    decode_encode (.vextracti32x8 (.reg 1) 2 1 ⟨0, false⟩) rfl,
    decode_encode (.vextracti64x4 (.reg 1) 2 1 ⟨0, false⟩) rfl⟩

/-- Settles O4: the row's fields are those that the decoder checked to select the form. -/
theorem decodedBytesMatchTheirTableRowOnly : Obligations.DecodedBytesMatchTheirTableRowOnly := by
  intro bytes i rest hdecode r hr
  rw [eq_tableRow_of_mem r hr, tableRow_form]
  rcases decode_eq_insn hdecode with ⟨l, rfl, hvex⟩ | ⟨l, rfl, hevex⟩
  · exact decodeVex_matches_iff hvex r.form
  · exact decodeEvex_matches_iff hevex r.form

/-- Settles O5: a row leaves only `z` of the reserved settings open. -/
theorem bytesMatchingARowDecodeToItsForm : Obligations.BytesMatchingARowDecodeToItsForm := by
  intro bytes r hr hmatch hwhole
  have hrow := eq_tableRow_of_mem r hr
  rw [hrow] at hmatch hwhole
  by_cases hf : r.form = .f1
  · rw [hf] at hmatch hwhole
    rw [if_neg (fun h => h.1 hf), hf]
    exact decode_of_matches_f1 hmatch hwhole
  · rw [tableRow, if_neg hf] at hwhole
    simpa only [ne_eq, hf, not_false_eq_true, true_and] using decode_of_matches_evex hf hmatch hwhole

/-- Settles O8: whatever has no opcode of the family is refused, by its opcode or as too short to show one. -/
theorem onlyTheFamilysOpcodesRaiseUDOrDecode : Obligations.OnlyTheFamilysOpcodesRaiseUDOrDecode := by
  intro bytes haccepted
  rcases decode_refuses_or_family bytes with hother | ⟨-, hshort⟩ | hfamily
  · exact absurd hother (haccepted _)
  · exact absurd hshort (haccepted _)
  · cases hfamily with
    | vex b1 b2 tail hmap hpp => exact .inl ⟨rfl, hmap, hpp, rfl⟩
    | evex p0 p1 p2 opcode tail hmap hpp hop => exact .inr ⟨rfl, hmap, hpp, hop⟩

/-- Settles O10: behind the four or five bytes up to the opcode, seven more hold any tail. -/
theorem twelveBytesAreNeverTruncated : Obligations.TwelveBytesAreNeverTruncated := by
  intro bytes hlength
  rcases decode_refuses_or_family bytes with hother | ⟨hshort, -⟩ | hfamily
  · rw [hother]; nofun
  · omega
  · cases hfamily with
    | vex b1 b2 tail hmap hpp =>
      obtain ⟨t, ht⟩ := exists_takeTail_of_length 0 (~~~b1.bit 6) (~~~b1.bit 5) (l := tail)
        (by simp only [List.length_cons] at hlength; omega)
      exact decode_vex_ne_refused hmap hpp ht .truncated
    | evex p0 p1 p2 opcode tail hmap hpp hop =>
      obtain ⟨t, ht⟩ := exists_takeTail_of_length (~~~p0.bit 6) (~~~p0.bit 6) (~~~p0.bit 5) (l := tail)
        (by simp only [List.length_cons] at hlength; omega)
      exact decode_evex_ne_refused hmap hpp hop ht .truncated

/-- Settles O57: a well-formed instruction meets the writemask's constraints (rule R77 g, h). -/
theorem assemblyMarksFollowTheWritemask : Obligations.AssemblyMarksFollowTheWritemask := by
  intro i
  refine ⟨by simp [assembly], Iff.rfl, fun hwf hz => ?_⟩
  have hmask : i.writemask.wf i.dst = true := (Bool.and_eq_true_iff.mp hwf).2
  have hallowed := mt writemask_wf_eq_false_iff.mpr (ne_false_of_eq_true hmask)
  have hz : i.writemask.z = true := hz
  simp only [hz, true_and, not_or, not_not] at hallowed
  obtain ⟨haaa, d, hd⟩ := hallowed
  exact ⟨by simpa [assembly] using haaa, extractWidth i.form, d, by simp [assembly, hd, asmOperand]⟩

end Machine

end Sys2Proof

/-! ## The step on an encoded instruction -/

namespace Sys2Proof.Machine

/-! ### Bytes of a held program text can be fetched (rules R75, R176) -/

theorem holds_of_holdsText {s : State} {bytes : List Byte} (h : s.HoldsText bytes) {q : Nat} (hq : q < bytes.length) :
    s.text.holds (s.text.base.toNat + q) = true := by
  obtain ⟨hsize, -, -, -⟩ := h
  rw [holds_iff, hsize]
  omega

theorem fetchable_of_holdsText {s : State} {bytes : List Byte} (h : s.HoldsText bytes) {q : Nat}
    (hq : q < bytes.length) : s.Fetchable (s.text.base.toNat + q) (bytes.getD q 0) := by
  have htext := holds_of_holdsText h hq
  obtain ⟨-, -, hmem, hadmit⟩ := h
  obtain ⟨hfits, hregion⟩ := memAdmit_eq_true_iff.mp (hadmit q hq)
  refine ⟨htext, hfits, hregion 0 Nat.one_pos, ?_⟩
  rw [hmem q hq, List.getD_eq_getElem _ _ hq]

/-- Any stretch of a held text can be fetched from its first byte on. -/
theorem fetches_of_holdsText {s : State} {before mid after : List Byte} (h : s.HoldsText (before ++ mid ++ after))
    (hpc : s.pc.toNat = s.text.base.toNat + before.length) : s.Fetches mid := by
  intro q hq
  have hfetch := fetchable_of_holdsText h (q := before.length + q) (by simp only [List.length_append]; omega)
  rw [hpc, Nat.add_assoc]
  rwa [List.append_assoc, List.getD_append_right _ _ _ _ (Nat.le_add_right ..), Nat.add_sub_cancel_left,
    List.getD_append _ _ _ _ hq] at hfetch

/-- An offset inside a held text is an address without wrapping (rule R176). -/
theorem toNat_base_add {s : State} {bytes : List Byte} (h : s.HoldsText bytes) {q : Nat} (hq : q < bytes.length) :
    (s.text.base + BitVec.ofNat 64 q).toNat = s.text.base.toNat + q := by
  obtain ⟨-, hfits, -, -⟩ := h
  have hspace : Config.spaceSize = 2 ^ 64 := rfl
  rw [BitVec.toNat_add, BitVec.toNat_ofNat]
  omega

/-- Before its last byte, a text shorter than the address space has not ended (rule R176). -/
theorem ended_eq_false_of_offset {s : State} {q : Nat} (hpc : s.pc = s.text.base + BitVec.ofNat 64 q)
    (hq : q < s.text.size) (hsize : s.text.size < Config.spaceSize) : s.ended = false := by
  have hspace : Config.spaceSize = 2 ^ 64 := rfl
  simp only [State.ended, ProgramText.finish, hpc, beq_eq_false_iff_ne, ne_eq, BitVec.add_right_inj]
  intro hoffset
  have hnumber := congrArg BitVec.toNat hoffset
  simp only [BitVec.toNat_ofNat] at hnumber
  omega

/-- Where a launch leaves room for the bytes, the state with them loaded holds them as its text (rule R171). -/
theorem holdsText_loadText (s : State) {bytes : List Byte} (hroom : s.pc.toNat + bytes.length ≤ Config.spaceSize) :
    (s.loadText bytes).HoldsText bytes := by
  have hbase : (s.loadText bytes).text.base = s.pc := rfl
  refine ⟨rfl, hroom, ?_, ?_⟩
  · intro q hq
    rw [hbase, loadText_mem, Memory.read_writeBytes, dif_pos (by omega)]
    simp only [Nat.add_sub_cancel_left]
  · intro q hq
    rw [hbase, memAdmit_eq_true_iff]
    refine ⟨by omega, fun r hr => ⟨⟨s.pc.toNat, bytes.length, false, true⟩, List.mem_cons_self, ?_⟩⟩
    rw [admits_fetch_iff]
    exact ⟨by dsimp only; omega, by dsimp only; omega, rfl⟩

/-! ### The step, by what the decoder answers -/

/-- Settles O12: with its two guards passed, the step is decided by what the decoder answers. -/
theorem stepRunsTheDecodedInstruction : Obligations.StepRunsTheDecodedInstruction := by
  intro s i rest hmode hrunning hdecode
  simp [step, hmode, hrunning, hdecode]

theorem step_of_decode_ud {s : State} (hmode : s.mode = .bits64) (hrunning : s.ended = false)
    (hdecode : decode (fetchBytes s).1 = .ud) : step s = .fault .ud := by
  simp [step, hmode, hrunning, hdecode, raise]

/-- Settles O13: the fetch offers the encoding first, and the decoder reads it back (O1). -/
theorem stepRunsTheEncodedInstructionAtPc : Obligations.StepRunsTheEncodedInstructionAtPc := by
  intro s i before after hmode hwf htext hlength hpc
  have hoffset : before.length < (before ++ encode i ++ after).length := by
    have := encode_length_pos i
    simp only [List.length_append]
    omega
  have hsize : s.text.size = (before ++ encode i ++ after).length := htext.1
  have hrunning := ended_eq_false_of_offset hpc (hsize ▸ hoffset) (hsize ▸ hlength)
  have hfetch := fetches_of_holdsText htext (hpc ▸ toNat_base_add htext hoffset)
  obtain ⟨more, hbytes⟩ := fetchBytes_prefix (encode_length i ▸ instr_length_le_maxLength i) hfetch
  exact stepRunsTheDecodedInstruction s i more hmode hrunning
    (hbytes ▸ decodeOfEncodeGivesTheInstruction i more hwf)

/-! ### A loaded word (log entry 4) -/

theorem natBytes_length (n w : Nat) : (natBytes n w).length = n := by
  induction n generalizing w with
  | zero => rfl
  | succ n ih => rw [natBytes, List.length_cons, ih]

theorem decode_of_decodeTableWord {nbits w : Nat} {i : Instr} (h : decodeTableWord nbits w = some i) :
    ∃ rest, decode (natBytes maxLength (w % 2 ^ nbits)) = .insn i rest := by
  unfold decodeTableWord at h
  split at h
  · rename_i j rest hdecode
    injection h with h
    exact ⟨rest, h ▸ hdecode⟩
  · cases h

/-- A window of the longest instruction's length that can be fetched is all the decoder is offered. -/
theorem fetchBytes_of_fetches {s : State} {bytes : List Byte} (hlength : bytes.length = maxLength)
    (h : s.Fetches bytes) : (fetchBytes s).1 = bytes := by
  rw [fetchBytes, ← hlength, ← Nat.add_zero bytes.length, fetchWindow_append h]
  exact List.append_nil bytes

/-- Settles O15: the fetch offers the decoder exactly the word's bytes. -/
theorem stepRunsTheLoadedTableWord : Obligations.StepRunsTheLoadedTableWord := by
  intro s nbits w i hmode hroom hword
  obtain ⟨rest, hdecode⟩ := decode_of_decodeTableWord hword
  have hlength := natBytes_length maxLength (w % 2 ^ nbits)
  have htext : (s.withFetchWord nbits w).HoldsText ([] ++ natBytes maxLength (w % 2 ^ nbits) ++ []) := by
    rw [List.nil_append, List.append_nil]
    exact holdsText_loadText s (hlength.symm ▸ hroom)
  have hrunning : (s.withFetchWord nbits w).ended = false :=
    ended_eq_false_of_offset (q := 0) (BitVec.add_zero _).symm
      (show 0 < (natBytes maxLength _).length by rw [hlength]; decide)
      (show (natBytes maxLength _).length < _ by rw [hlength]; decide)
  have hbytes := fetchBytes_of_fetches hlength (fetches_of_holdsText htext rfl)
  exact stepRunsTheDecodedInstruction _ i rest hmode hrunning (hbytes ▸ hdecode)

/-! ### An instruction that cannot be fetched whole (rules R75, R176; log entry 11) -/

theorem fetches_take {s : State} {bytes : List Byte} {k : Nat} (hk : k ≤ bytes.length) (h : s.FetchesTo bytes k) :
    s.Fetches (bytes.take k) := by
  intro q hq
  rw [List.length_take, Nat.min_eq_left hk] at hq
  simpa [List.getD_eq_getElem?_getD, List.getElem?_take, hq] using h q hq

/-- A whole instruction of the family is answered by the reason for which its first byte that cannot be read
stops the fetch. -/
theorem step_of_fetch_stop {s : State} {bytes : List Byte} {k : Nat} {e : FetchStop} (hmode : s.mode = .bits64)
    (hrunning : s.ended = false) (hwhole : WholeInstruction bytes) (hk : k < bytes.length)
    (hfetch : s.FetchesTo bytes k) (hstop : fetchByte s (s.pc.toNat + k) = .error e) :
    step s = fetchFailure (some e) := by
  have htake : (bytes.take k).length = k := List.length_take_of_le hk.le
  have hwindow : fetchBytes s = (bytes.take k, some e) :=
    fetchBytes_stop (htake.symm ▸ hk.trans_le (wholeInstruction_length hwhole)) (fetches_take hk.le hfetch)
      (htake.symm ▸ hstop)
  simp [step, hmode, hrunning, hwindow, decode_of_strict_prefix hwhole hk]

theorem fetchByte_not_admitted {s : State} {a : Nat} (htext : s.text.holds a = true)
    (h : ∀ r ∈ s.regions, r.admits .fetch a = false) : fetchByte s a = .error .notAdmitted := by
  have hadmit : ¬s.memAdmit a 1 .fetch = true := by
    rw [memAdmit_eq_true_iff]
    rintro ⟨-, hregion⟩
    obtain ⟨r, hr, hadmits⟩ := hregion 0 Nat.one_pos
    rw [Nat.add_zero, h r hr] at hadmits
    cases hadmits
  rw [fetchByte, if_pos htext, if_neg hadmit]

/-- Settles O17: the bytes below byte `k` are a strict beginning of the instruction. -/
theorem fetchNeedsAdmission : Obligations.FetchNeedsAdmission := by
  intro s bytes k hmode hrunning hwhole hk hfetch htext hregions
  exact step_of_fetch_stop hmode hrunning hwhole hk hfetch (fetchByte_not_admitted htext hregions)

/-! ### Reserved settings (rules R76, R77) -/

/-- The fetch may offer the decoder more than the instruction, so it has to answer `#UD` whatever follows. -/
theorem step_of_fetches_ud {s : State} {bytes : List Byte} (hmode : s.mode = .bits64) (hrunning : s.ended = false)
    (hwhole : WholeInstruction bytes) (hfetch : s.Fetches bytes)
    (hdecode : ∀ more, decode (bytes ++ more) = .ud) : step s = .fault .ud := by
  obtain ⟨more, hbytes⟩ := fetchBytes_prefix (wholeInstruction_length hwhole) hfetch
  exact step_of_decode_ud hmode hrunning (hbytes ▸ hdecode more)

theorem step_of_vexReserved {s : State} {b1 b2 : Byte} {tail : List Byte} (hmode : s.mode = .bits64)
    (hrunning : s.ended = false) (hcomplete : CompletesInstruction tail)
    (hfetch : s.Fetches (0xC4 :: b1 :: b2 :: 0x39 :: tail)) (hmap : b1.extractLsb' 0 5 = 0b00011)
    (hpp : b2.extractLsb' 0 2 = 0b01) (h : VexReserved b2) : step s = .fault .ud := by
  refine step_of_fetches_ud hmode hrunning (.vex b1 b2 tail hmap hpp hcomplete) hfetch fun more => ?_
  obtain ⟨t, ht, -⟩ := takeTail_of_completes hcomplete 0 (~~~b1.bit 6) (~~~b1.bit 5) more
  exact (decode_vex_of_tail hmap hpp ht).trans (if_pos h)

/-- A reserved setting behind an EVEX opcode raises `#UD`; the constraints on `z` look at ModRM. -/
theorem step_of_evexReserved {s : State} {p0 p1 p2 opcode : Byte} {tail : List Byte} (hmode : s.mode = .bits64)
    (hrunning : s.ended = false) (hcomplete : CompletesInstruction tail)
    (hfetch : s.Fetches (0x62 :: p0 :: p1 :: p2 :: opcode :: tail)) (hmap : p0.extractLsb' 0 2 = 0b11)
    (hpp : p1.extractLsb' 0 2 = 0b01) (hop : opcode = 0x39 ∨ opcode = 0x3B)
    (h : evexForm opcode (p1.bit 7) (p2.extractLsb' 5 2) = none ∨ evexReserved p0 p1 p2 = true ∨
      ∃ modrm l, tail = modrm :: l ∧ p2.getLsbD 7 = true ∧
        (p2.extractLsb' 0 3 = 0 ∨ modrm.extractLsb' 6 2 ≠ 3)) : step s = .fault .ud := by
  refine step_of_fetches_ud hmode hrunning (.evex p0 p1 p2 opcode tail hmap hpp hop hcomplete) hfetch fun more => ?_
  obtain ⟨t, ht, -⟩ := takeTail_of_completes hcomplete (~~~p0.bit 6) (~~~p0.bit 6) (~~~p0.bit 5) more
  refine decode_evex_of_reserved hmap hpp hop ht (h.imp_right (.imp_right ?_))
  rintro ⟨modrm, l, rfl, hz⟩
  exact (evexWritemask_wf_eq_false_iff ht).mpr hz

/-- Settles O6: the VEX and the EVEX bytes count a stored `vvvv` other than 1111b among their reserved settings. -/
theorem sourceReservedSettingsRaiseUD : Obligations.SourceReservedSettingsRaiseUD := by
  intro s b1 b2 p0 p1 p2 opcode tail hmode hrunning hcomplete
  constructor
  · intro hfetch hmap hpp h
    refine step_of_vexReserved hmode hrunning hcomplete hfetch hmap hpp ?_
    rcases h with hvvvv | hl
    · exact .inr (.inr hvvvv)
    · exact .inl (bit_eq_zero_iff.mpr hl)
  · intro hfetch hmap hpp hop hvvvv
    exact step_of_evexReserved hmode hrunning hcomplete hfetch hmap hpp hop
      (.inr (.inl (evexReserved_iff.mpr (.inr (.inr (.inl hvvvv))))))

/-- Settles O7: L'L selects no form, a payload bit is reserved, or `z` breaks its constraints. -/
theorem otherReservedSettingsRaiseUD : Obligations.OtherReservedSettingsRaiseUD := by
  intro s b1 b2 p0 p1 p2 opcode modrm tail hmode hrunning hcomplete
  constructor
  · intro hfetch hmap hpp hw
    exact step_of_vexReserved hmode hrunning hcomplete hfetch hmap hpp (.inr (.inl (bit_eq_one_iff.mpr hw)))
  · intro hfetch hmap hpp hop h
    refine step_of_evexReserved hmode hrunning hcomplete hfetch hmap hpp hop ?_
    rw [evexReserved_iff]
    rcases h with hzero | hone | hll | hll | hb | hv | hz
    · exact .inr (.inl (.inl hzero))
    · exact .inr (.inl (.inr (.inl hone)))
    · exact .inl (evexForm_eq_none _ (.inl hll))
    · exact .inl (evexForm_eq_none _ (.inr hll))
    · exact .inr (.inl (.inr (.inr (.inr (.inl hb)))))
    · exact .inr (.inl (.inr (.inr (.inr (.inr hv)))))
    · exact .inr (.inr ⟨modrm, tail, rfl, hz⟩)

end Sys2Proof.Machine

/-! ## The block that the immediate selects -/

namespace Sys2Proof.Machine

/-- A field of a field is a field of the whole. -/
theorem extractLsb'_extractLsb'_add {w len start n : Nat} (x : BitVec w) (base : Nat) (h : start + n ≤ len) :
    (x.extractLsb' base len).extractLsb' start n = x.extractLsb' (base + start) n := by
  ext b hb
  have hlt : start + b < len := by omega
  simp [hlt, Nat.add_assoc]

/-! ### Selection as a field at a multiple of the block's width (rules R101, R102) -/

/-- With a 256-bit source only blocks 0 and 1 can be named, and both lie inside it. -/
theorem sel128_ymm (src : Zmm) (imm : Byte) :
    sel128 256 src imm = src.extractLsb' (128 * (imm.extractLsb' 0 1).toNat) 128 := by
  have hin : 128 * (imm.extractLsb' 0 1).toNat + 128 ≤ 256 := by omega
  exact BitVec.extractLsb'_extractLsb'_of_le hin

theorem sel128_zmm (src : Zmm) (imm : Byte) :
    sel128 512 src imm = src.extractLsb' (128 * (imm.extractLsb' 0 2).toNat) 128 := by
  have hin : 128 * (imm.extractLsb' 0 2).toNat + 128 ≤ 512 := by omega
  exact BitVec.extractLsb'_extractLsb'_of_le hin

theorem toNat_extractLsb'_one (imm : Byte) : (imm.extractLsb' 0 1).toNat = if imm.getLsbD 0 then 1 else 0 := by
  rw [BitVec.getLsbD_eq_extractLsb']
  generalize imm.extractLsb' 0 1 = n
  revert n
  decide

theorem bitVec2_cases : ∀ n : BitVec 2, n = 0b00 ∨ n = 0b01 ∨ n = 0b10 ∨ n = 0b11 := by decide

/-- Settles O27: the immediate's low bits count blocks of 128 bits. -/
theorem sel128PicksTheImmediatesBlock : Obligations.Sel128PicksTheImmediatesBlock := by
  intro src imm
  constructor
  · rw [sel128_ymm, toNat_extractLsb'_one]
    cases imm.getLsbD 0 with
    | false | true => rfl
  · rw [sel128_zmm]
    obtain h | h | h | h := bitVec2_cases (imm.extractLsb' 0 2) <;> rw [h] <;> rfl

/-- Settles O28: the immediate's bit 0 counts halves of 256 bits. -/
theorem sel256PicksTheImmediatesHalf : Obligations.Sel256PicksTheImmediatesHalf := by
  intro src imm
  rw [sel256, toNat_extractLsb'_one]
  cases imm.getLsbD 0 with
  | false | true => rfl

/-! ### One selection for every form -/

/-- The number of the block that the immediate selects: the source holds `VL / W` blocks, and the immediate counts
modulo their number (rules R100 to R102, R107). -/
def blockIndex (f : Form) (imm : Byte) : Nat := imm.toNat % (vectorLength f / extractWidth f)

theorem selectedBlock_eq_extract (f : Form) (src : Zmm) (imm : Byte) :
    selectedBlock f src imm = src.extractLsb' (extractWidth f * blockIndex f imm) (extractWidth f) := by
  cases f with
  | f1 | f2 | f4 => exact sel128_ymm src imm
  | f3 | f5 => exact sel128_zmm src imm
  | f6 | f7 => rfl

theorem selectedBlock_congr_imm {f : Form} {imm imm' : Byte} (h : blockIndex f imm = blockIndex f imm') (src : Zmm) :
    selectedBlock f src imm = selectedBlock f src imm' := by
  rw [selectedBlock_eq_extract, selectedBlock_eq_extract, h]

/-! ### The immediate's other bits (rule R107) -/

theorem toNat_and_mod_two_pow (imm : Byte) {k : Nat} (hk : k ≤ 8) :
    (imm &&& BitVec.ofNat 8 (2 ^ k - 1)).toNat % 2 ^ k = imm.toNat % 2 ^ k := by
  have hlow : 2 ^ k - 1 < 2 ^ 8 := by have := Nat.pow_le_pow_right (n := 2) (by decide) hk; omega
  rw [BitVec.toNat_and, BitVec.toNat_ofNat, Nat.mod_eq_of_lt hlow, Nat.and_two_pow_sub_one_eq_mod, Nat.mod_mod]

theorem blockIndex_low_bits (f : Form) (imm : Byte) :
    blockIndex f (imm &&& (if f = .f3 ∨ f = .f5 then 0x03 else 0x01)) = blockIndex f imm := by
  cases f with
  | f3 | f5 => exact toNat_and_mod_two_pow imm (k := 2) (by decide)
  | f1 | f2 | f4 | f6 | f7 => exact toNat_and_mod_two_pow imm (k := 1) (by decide)

/-- WHAT exec READS of the immediate: the number of the block, and nothing else. -/
theorem exec_congr_imm {f : Form} {imm imm' : Byte} (h : blockIndex f imm = blockIndex f imm') (dst : Operand)
    (src : VReg) (wm : Writemask) (s : State) :
    exec (.ofForm f dst src imm wm) s = exec (.ofForm f dst src imm' wm) s := by
  have hblock := selectedBlock_congr_imm h (s.getZmm src)
  rw [exec_eq_writeMasked, exec_eq_writeMasked]
  cases f with
  | f1 | f2 | f3 | f4 | f5 | f6 | f7 => exact congrArg (fun tmp => checked _ s (writeMasked _ tmp dst _ s)) hblock

/-- Settles O29: the other bits do not enter the block's number; 3 and 1 name the same block of two. -/
theorem highImmediateBitsAreIgnored : Obligations.HighImmediateBitsAreIgnored :=
  ⟨fun f dst src imm wm s => exec_congr_imm (blockIndex_low_bits f imm).symm dst src wm s,
    fun dst src wm s => exec_congr_imm (f := .f2) rfl dst src wm s⟩

end Sys2Proof.Machine

/-! ## The register destination -/

namespace Sys2Proof.Machine

/-! ### The masked register write (rules R104, R105) -/

section RegisterWrite

variable {w e j : Nat} (s : State) (d : VReg) (tmp : BitVec w) (wm : Writemask)

/-- Element `j` of the destination after the masked write, which reads the old element from the register itself. -/
theorem writeRegMasked_element (hw : w ≤ Config.maxVL) (hj : j < w / e) :
    ((writeRegMasked s d tmp e (w / e) wm).getZmm d).extractLsb' (j * e) e =
      if s.ElementEnabled wm j then tmp.extractLsb' (j * e) e
      else if wm.z then 0 else (s.getZmm d).extractLsb' (j * e) e := by
  have hinBlock : j * e + e ≤ w := by
    calc j * e + e = (j + 1) * e := (Nat.succ_mul j e).symm
      _ ≤ w / e * e := Nat.mul_le_mul_right e hj
      _ ≤ w := Nat.div_mul_le_self w e
  rw [writeRegMasked_getZmm, BitVec.extractLsb'_setWidth_of_le (hinBlock.trans hw), blend_element _ _ _ _ hj,
    BitVec.extractLsb'_extractLsb'_of_le hinBlock]
  exact if_congr (enabled_iff s wm j) rfl rfl

theorem writeRegMasked_zero_above (n : Nat) {b : Nat} (hb : w ≤ b) :
    ((writeRegMasked s d tmp e n wm).getZmm d).getLsbD b = false := by
  rw [writeRegMasked_getZmm, BitVec.getLsbD_setWidth, BitVec.getLsbD_of_ge _ _ hb, Bool.and_false]

/-- WHAT writeRegMasked DOES, with the pc moved on: the loop's elements, zeros above, and nothing else. -/
theorem writeRegMasked_registerWritten (hw : w ≤ Config.maxVL) (next : Word) :
    RegisterWritten e d tmp wm next s ((writeRegMasked s d tmp e (w / e) wm).setPc next) :=
  ⟨fun _ hj => writeRegMasked_element s d tmp wm hw hj,
    fun _ hb => writeRegMasked_zero_above s d tmp wm (w / e) hb,
    fun _ hr => getZmm_setZmm_ne s _ hr, rfl⟩

end RegisterWrite

theorem extractWidth_le_maxVL (f : Form) : extractWidth f ≤ Config.maxVL := by cases f <;> decide

/-- Settles O26: the write leaves the pc to the instruction, so it stays where it is. -/
theorem maskedRegisterWriteFollowsTheLoop : Obligations.MaskedRegisterWriteFollowsTheLoop :=
  fun f s d tmp wm _ => writeRegMasked_registerWritten s d tmp wm (extractWidth_le_maxVL f) s.pc

/-! ### Every form with a register destination -/

/-- WHAT exec DOES with a register destination: when the form's checks pass it completes with the selected block
written under the writemask (rules R100, R104, R105, R111). -/
theorem exec_reg {i : Instr} {d : VReg} {s : State} (hdst : i.dst = .reg d) (hready : s.Ready i.form) :
    ∃ t, exec i s = .next t ∧ RegisterWritten (elementWidth i.form) d
      (selectedBlock i.form (s.getZmm i.src) i.imm) i.writemask (nextPc s i.form (.reg d)) s t :=
  ⟨_, by rw [exec_ready hready, hdst]; rfl,
    writeRegMasked_registerWritten s d _ _ (extractWidth_le_maxVL i.form) _⟩

/-- Settles O25: zero above the block is part of every register write, and the block of form F1 is one element. -/
theorem registerDestinationIsZeroAboveTheBlock : Obligations.RegisterDestinationIsZeroAboveTheBlock := by
  constructor
  · intro i d s hdst hready
    obtain ⟨t, hexec, -, habove, -⟩ := exec_reg hdst hready
    exact ⟨t, hexec, habove⟩
  · intro d src imm s hready
    obtain ⟨t, hexec, helements, -⟩ := exec_reg (i := .vextracti128 (.reg d) src imm) rfl hready
    have hblock := helements 0 (show 0 < 128 / 128 by decide)
    rw [if_pos (.inl rfl)] at hblock
    exact ⟨t, hexec, hblock.trans BitVec.extractLsb'_eq_self⟩

end Sys2Proof.Machine

/-! ## The forms among themselves, without a writemask -/

namespace Sys2Proof.Machine

/-- What an unmasked extraction leaves in its destination register: the selected block, zeros above (rule R105). -/
def extractedValue (f : Form) (src : Zmm) (imm : Byte) : Zmm := (selectedBlock f src imm).setWidth Config.maxVL

theorem extractedValue_eq (f : Form) (src : Zmm) (imm : Byte) : extractedValue f src imm =
    (src.extractLsb' (extractWidth f * blockIndex f imm) (extractWidth f)).setWidth Config.maxVL := by
  rw [extractedValue, selectedBlock_eq_extract]

theorem exec_reg_unmasked {i : Instr} {d : VReg} {s : State} (hdst : i.dst = .reg d) (hwm : i.writemask.aaa = 0)
    (hready : s.Ready i.form) :
    ∃ t, exec i s = .next t ∧ t.getZmm d = extractedValue i.form (s.getZmm i.src) i.imm := by
  refine ⟨_, by rw [exec_ready hready, hdst, writeMasked_reg_unmasked _ d s hwm], ?_⟩
  rw [getZmm_setPc, getZmm_setZmm_same, extractedValue]

/-! ### Forms of one source width and one block width (section 3.8 item 3) -/

@[simp] theorem imm_ofForm (f : Form) (dst : Operand) (src : VReg) (imm : Byte) (wm : Writemask) :
    (Instr.ofForm f dst src imm wm).imm = imm := by cases f <;> rfl

theorem aaa_ofForm_unmasked (f : Form) (dst : Operand) (src : VReg) (imm : Byte) (z : Bool) :
    (Instr.ofForm f dst src imm ⟨0, z⟩).writemask.aaa = 0 := by cases f <;> rfl

theorem exec_ofForm_reg_unmasked {f : Form} (d src : VReg) (imm : Byte) (z : Bool) {s : State} (hready : s.Ready f) :
    ∃ t, exec (.ofForm f (.reg d) src imm ⟨0, z⟩) s = .next t ∧
      t.getZmm d = extractedValue f (s.getZmm src) imm := by
  simpa using exec_reg_unmasked (s := s) (dst_ofForm f (.reg d) src imm ⟨0, z⟩) (aaa_ofForm_unmasked f _ src imm z)
    (by simpa using hready)

/-- The element width does not enter the value. -/
theorem extractedValue_congr_form {f g : Form} (hsource : vectorLength f = vectorLength g)
    (hblock : extractWidth f = extractWidth g) (src : Zmm) (imm : Byte) :
    extractedValue f src imm = extractedValue g src imm := by
  rw [extractedValue_eq, extractedValue_eq, blockIndex, blockIndex, hsource, hblock]

/-- Settles O52: both leave the same block of the source, with zeros above it. -/
theorem unmaskedFormsAgreeOnTheRegister : Obligations.UnmaskedFormsAgreeOnTheRegister := by
  intro f g d src imm z s hsource hblock hf hg
  obtain ⟨t, ht, htValue⟩ := exec_ofForm_reg_unmasked d src imm z hf
  obtain ⟨u, hu, huValue⟩ := exec_ofForm_reg_unmasked d src imm z hg
  exact ⟨t, u, ht, hu, by rw [htValue, huValue, extractedValue_congr_form hsource hblock]⟩

/-! ### A block of the upper half (section 3.8 item 7) -/

/-- Block `b` of the upper half starts `256 + 128 * b` bits up, where block `2 + b` of the whole does. -/
theorem extractedValue_upperHalf {imm imm' : Byte} (himm : blockIndex .f3 imm' = 2 + blockIndex .f1 imm) (src : Zmm) :
    extractedValue .f1 (extractedValue .f7 src 1) imm = extractedValue .f3 src imm' := by
  have hhalf : extractedValue .f7 src 1 = (src.extractLsb' 256 256).setWidth Config.maxVL := rfl
  have hlt : blockIndex .f1 imm < 2 := Nat.mod_lt _ (by decide)
  have hin : 128 * blockIndex .f1 imm + 128 ≤ 256 := by omega
  rw [hhalf, extractedValue_eq, extractedValue_eq, himm]
  simp only [extractWidth]
  rw [BitVec.extractLsb'_setWidth_of_le (hin.trans (by decide)), extractLsb'_extractLsb'_add _ _ hin, Nat.mul_add]

/-- An instruction changes nothing that the checks read (rule R109). -/
theorem ready_of_exec_next {i : Instr} {s t : State} {f : Form} (h : exec i s = .next t) (hready : s.Ready f) :
    t.Ready f := by
  rw [(exec_next h).2.eq_update]
  exact hready

/-- Settles O53: the second instruction still passes its checks, and reads the half that the first one left. -/
theorem upperHalfThenBlockIsTheUpperBlock : Obligations.UpperHalfThenBlockIsTheUpperBlock := by
  intro d e src b s hf7 hf1 hf3
  obtain ⟨t, ht, htValue⟩ := exec_ofForm_reg_unmasked d src 1 false hf7
  obtain ⟨u, hu, huValue⟩ :=
    exec_ofForm_reg_unmasked e d (if b then 1 else 0) false (ready_of_exec_next ht hf1)
  obtain ⟨v, hv, hvValue⟩ := exec_ofForm_reg_unmasked e src (if b then 3 else 2) false hf3
  have himm : blockIndex .f3 (if b then 3 else 2) = 2 + blockIndex .f1 (if b then 1 else 0) := by
    cases b with
    | false | true => rfl
  exact ⟨t, u, v, ht, hu, hv, by rw [huValue, htValue, hvValue, extractedValue_upperHalf himm]⟩

end Sys2Proof.Machine

/-! ## The memory destination -/

namespace Sys2Proof.Machine

/-! ### The masked store, element by element (rules R44, R106) -/

/-- Byte `q` of element `j` after the masked store of `n` elements of `c` bytes. -/
theorem read_writeElements_element {w : Nat} (mem : Memory) (addr : Nat) {c : Nat} (en : Nat → Bool) (tmp : BitVec w)
    {n j q : Nat} (hj : j < n) (hq : q < c) :
    Memory.read (writeElements mem addr (8 * c) en tmp n) (addr + j * c + q) =
      if en j = true then some (tmp.extractLsb' (j * (8 * c) + 8 * q) 8) else Memory.read mem (addr + j * c + q) := by
  have hoffset : addr + j * c + q - addr = j * c + q := by omega
  have hinElement : j * c + q < (j + 1) * c := by rw [Nat.succ_mul]; omega
  have helement : (j * c + q) / c = j := Nat.div_eq_of_lt_le (Nat.le_add_right _ q) hinElement
  have hinBlock : j * c + q < n * c := hinElement.trans_le (Nat.mul_le_mul_right c hj)
  have hbit : 8 * (j * c + q) = j * (8 * c) + 8 * q := by ring
  rw [read_writeElements mem addr (Nat.zero_lt_of_lt hq), hoffset, helement, hbit]
  exact if_congr ⟨fun ⟨_, _, h⟩ => h, fun h => ⟨by omega, by omega, h⟩⟩ rfl rfl

/-- WHAT writeElements DOES, with the pc moved on: the enabled elements' bytes, every other byte as before, and nothing
else. -/
theorem writeElements_footprintWritten (f : Form) (s : State) (ea : Word) (tmp : BitVec (extractWidth f))
    (wm : Writemask) (next : Word) :
    FootprintWritten (elementWidth f) ea tmp wm next s
      { s with
        mem := writeElements s.mem ea.toNat (elementWidth f) (s.enabled wm) tmp (elementCount f)
        pc := next } := by
  obtain ⟨c, hc, hwidth, hcount⟩ := elementWidth_eq f
  have hbytes : elementWidth f / 8 = c := by omega
  refine ⟨fun j hj q hq => ?_, fun a ha => ?_, rfl⟩
  · rw [hbytes] at hq ⊢
    simp only [hwidth]
    rw [read_writeElements_element s.mem ea.toNat _ tmp (n := elementCount f) hj hq]
    exact if_congr (enabled_iff s wm j) rfl rfl
  · simp only [hwidth]
    rw [read_writeElements _ _ hc, hcount, if_neg (by omega)]

/-! ### Every form with a memory destination -/

/-- WHAT exec DOES with a memory destination that is ready for the store: when the form's checks pass it completes with
the selected block stored under the writemask (rules R100, R106, R111). -/
theorem exec_mem_ready {i : Instr} {m : MemOperand} {s : State} (hdst : i.dst = .mem m) (hready : s.Ready i.form)
    (hstore : s.StoreReady (storeAddress s i.form m) (extractWidth i.form / 8)) :
    ∃ t, exec i s = .next t ∧ FootprintWritten (elementWidth i.form) (storeAddress s i.form m)
      (selectedBlock i.form (s.getZmm i.src) i.imm) i.writemask (nextPc s i.form (.mem m)) s t :=
  ⟨_, by rw [exec_ready hready, hdst, writeMasked_mem, store_ready (footprint_pos i.form) _ _ hstore],
    writeElements_footprintWritten i.form s _ _ _ _⟩

end Sys2Proof.Machine

/-! ## The seven instructions complete with their results -/

namespace Sys2Proof.Machine

/-- Settles O31: form F1 writes its block as one element that no writemask disables, and rule R101 names the block. -/
theorem vextracti128CompletesWithItsResult : Obligations.Vextracti128CompletesWithItsResult := by
  intro src imm s hready tmp
  have htmp : tmp = selectedBlock .f1 (s.getZmm src) imm := (sel128PicksTheImmediatesBlock (s.getZmm src) imm).1.symm
  rw [htmp]
  exact ⟨fun d => exec_reg (i := .vextracti128 (.reg d) src imm) rfl hready,
    fun m (hstore : s.StoreReady (storeAddress s .f1 m) (extractWidth .f1 / 8)) =>
      exec_mem_ready (i := .vextracti128 (.mem m) src imm) rfl hready hstore⟩

end Sys2Proof.Machine

/-! ## The forms with a writemask complete with their results -/

namespace Sys2Proof.Machine

/-! ### The block of a 512-bit source, by the immediate's bits (rule R101) -/

theorem toNat_extractLsb'_two : ∀ imm : Byte, (imm.extractLsb' 0 2).toNat =
    if imm.getLsbD 1 then if imm.getLsbD 0 then 3 else 2 else if imm.getLsbD 0 then 1 else 0 := by decide

theorem sel128_zmm_bits (src : Zmm) (imm : Byte) : sel128 512 src imm =
    if imm.getLsbD 1 then if imm.getLsbD 0 then src.extractLsb' 384 128 else src.extractLsb' 256 128
    else if imm.getLsbD 0 then src.extractLsb' 128 128 else src.extractLsb' 0 128 := by
  rw [sel128_zmm, toNat_extractLsb'_two]
  cases imm.getLsbD 1 with
  | false | true =>
    cases imm.getLsbD 0 with
    | false | true => rfl

/-! ### Every EVEX form -/

/-- WHAT exec DOES for an EVEX form whose checks pass, whatever its destination: it completes with the selected block
written to the register, or stored where memory is ready for it, under the instruction's writemask. -/
theorem exec_evex_completes {f : Form} (hf : f ≠ .f1) (src : VReg) (imm : Byte) (wm : Writemask) {s : State}
    (hready : s.Ready f) :
    (∀ d, ∃ t, exec (.ofForm f (.reg d) src imm wm) s = .next t ∧
      RegisterWritten (elementWidth f) d (selectedBlock f (s.getZmm src) imm) wm (nextPc s f (.reg d)) s t) ∧
    (∀ m, s.StoreReady (storeAddress s f m) (extractWidth f / 8) →
      ∃ t, exec (.ofForm f (.mem m) src imm wm) s = .next t ∧
        FootprintWritten (elementWidth f) (storeAddress s f m) (selectedBlock f (s.getZmm src) imm) wm
          (nextPc s f (.mem m)) s t) := by
  cases f with
  | f1 => exact absurd rfl hf
  | f2 | f3 | f4 | f5 | f6 | f7 =>
    exact ⟨fun d => exec_reg (i := .ofForm _ (.reg d) src imm wm) rfl hready,
      fun m hstore => exec_mem_ready (i := .ofForm _ (.mem m) src imm wm) rfl hready hstore⟩

/-- Settles O32: form F2 selects by rule R101 from a source of 256 bits, where bit 0 names the block. -/
theorem vextracti32x4OfYmmCompletesWithItsResult : Obligations.Vextracti32x4OfYmmCompletesWithItsResult := by
  intro src imm wm s hready tmp
  have htmp : tmp = selectedBlock .f2 (s.getZmm src) imm := (sel128PicksTheImmediatesBlock (s.getZmm src) imm).1.symm
  rw [htmp]
  exact exec_evex_completes (by decide) src imm wm hready

/-- Settles O33: form F3 selects by rule R101 from a source of 512 bits, where bits 1 and 0 name the block. -/
theorem vextracti32x4OfZmmCompletesWithItsResult : Obligations.Vextracti32x4OfZmmCompletesWithItsResult := by
  intro src imm wm s hready tmp
  have htmp : tmp = selectedBlock .f3 (s.getZmm src) imm := (sel128_zmm_bits (s.getZmm src) imm).symm
  rw [htmp]
  exact exec_evex_completes (by decide) src imm wm hready

end Sys2Proof.Machine


/-! ## VEXTRACTI64x2 completes with its result -/

namespace Sys2Proof.Machine

/-- Settles O34: form F4 selects as F2 does (rule R101, source of 256 bits) and differs in the element width alone. -/
theorem vextracti64x2OfYmmCompletesWithItsResult : Obligations.Vextracti64x2OfYmmCompletesWithItsResult := by
  intro src imm wm s hready tmp
  have htmp : tmp = selectedBlock .f4 (s.getZmm src) imm := (sel128PicksTheImmediatesBlock (s.getZmm src) imm).1.symm
  rw [htmp]
  exact exec_evex_completes (by decide) src imm wm hready

/-- Settles O35: form F5 selects as F3 does (rule R101, source of 512 bits) and differs in the element width alone. -/
theorem vextracti64x2OfZmmCompletesWithItsResult : Obligations.Vextracti64x2OfZmmCompletesWithItsResult := by
  intro src imm wm s hready tmp
  have htmp : tmp = selectedBlock .f5 (s.getZmm src) imm := (sel128_zmm_bits (s.getZmm src) imm).symm
  rw [htmp]
  exact exec_evex_completes (by decide) src imm wm hready

end Sys2Proof.Machine

/-! ## VEXTRACTI32x8 completes with its result -/

namespace Sys2Proof.Machine

/-- Settles O36: form F6 selects by rule R102, where bit 0 names the half, and its block is eight 32-bit elements. -/
theorem vextracti32x8CompletesWithItsResult : Obligations.Vextracti32x8CompletesWithItsResult := by
  intro src imm wm s hready tmp
  have htmp : tmp = selectedBlock .f6 (s.getZmm src) imm := (sel256PicksTheImmediatesHalf (s.getZmm src) imm).symm
  rw [htmp]
  exact exec_evex_completes (by decide) src imm wm hready

end Sys2Proof.Machine

/-! ## VEXTRACTI64x4 completes with its result -/

namespace Sys2Proof.Machine

/-- Settles O37: form F7 selects as F6 does (rule R102, bit 0 names the half) and differs in the element width alone. -/
theorem vextracti64x4CompletesWithItsResult : Obligations.Vextracti64x4CompletesWithItsResult := by
  intro src imm wm s hready tmp
  have htmp : tmp = selectedBlock .f7 (s.getZmm src) imm := (sel256PicksTheImmediatesHalf (s.getZmm src) imm).symm
  rw [htmp]
  exact exec_evex_completes (by decide) src imm wm hready

end Sys2Proof.Machine

/-! ## The intrinsics -/

namespace Sys2Proof.Machine

/-! ### The flavours as a writemask (rule R135) -/

/-- Zeroing-masking belongs to the maskz flavour alone. -/
def Flavour.zeroing : Flavour → Bool
  | .plain | .mask => false
  | .maskz => true

/-- The writemask fields of the instruction that an intrinsic of a flavour stands for. -/
def Flavour.writemask (flavour : Flavour) (k : KReg) : Writemask :=
  match flavour with
  | .plain => ⟨0, false⟩
  | .mask => ⟨k, false⟩
  | .maskz => ⟨k, true⟩

/-- Whether element `j` of an intrinsic's value comes from the block: only the plain flavour has no mask. -/
def Flavour.enables (flavour : Flavour) (k : BitVec 8) (j : Nat) : Bool :=
  match flavour with
  | .plain => true
  | .mask | .maskz => k.getLsbD j

@[simp] theorem writemask_z (flavour : Flavour) (k : KReg) : (flavour.writemask k).z = flavour.zeroing := by
  cases flavour <;> rfl

/-- The mask argument is the low byte of the writemask register, which holds the bit of every element. -/
theorem enabled_writemask (s : State) {k : KReg} (hk : k ≠ 0) (flavour : Flavour) {j : Nat} (hj : j < 8) :
    s.enabled (flavour.writemask k) j = flavour.enables ((s.getK k).extractLsb' 0 8) j := by
  cases flavour with
  | plain => exact enabled_of_aaa_zero s rfl j
  | mask | maskz => simpa [State.enabled, Flavour.writemask, Flavour.enables, hj] using fun h => absurd h hk

theorem elementCount_le_eight (f : Form) : elementCount f ≤ 8 := by cases f <;> decide

/-- Form F1 has no writemask, and its one intrinsic has no mask. -/
theorem flavour_of_form_f1 {i : Intrinsic} (h : i.form = .f1) : i.flavour = .plain := by
  cases i with
  | mm256_extracti128_si256 => rfl
  | _ => cases h

/-! ### The value of an intrinsic -/

/-- WHAT intrinsicResult IS, for every flavour at once: the loop of rule R104 over the selected block and the
pass-through vector; a plain intrinsic enables every element. -/
theorem intrinsicResult_eq_blend (i : Intrinsic) (s : BitVec (extractWidth i.form)) (k : BitVec 8)
    (a : BitVec (vectorLength i.form)) (n : Byte) :
    intrinsicResult i s k a n = blend (elementWidth i.form) (i.flavour.enables k) i.flavour.zeroing
      (selectBlock i.form a n) s (elementCount i.form) := by
  unfold intrinsicResult
  cases i.flavour with
  | plain =>
    exact (blend_all (elementWidth_pos i.form) (elementCount_mul_elementWidth i.form).ge (fun _ _ => rfl) _ _ s).symm
  | mask | maskz => rfl

/-- Settles O56: an element of the loop, where the flavour says which elements are enabled and what the others are. -/
theorem intrinsicElementsFollowTheirFlavour : Obligations.IntrinsicElementsFollowTheirFlavour := by
  intro i s k a n j hj e
  rw [intrinsicResult_eq_blend, blend_element _ _ _ _ hj]
  cases i.flavour with
  | plain | mask | maskz => rfl

/-! ### The instruction of an intrinsic -/

theorem extractLsb'_setWidth_self {w : Nat} (x : BitVec w) (hw : w ≤ Config.maxVL) :
    (x.setWidth Config.maxVL).extractLsb' 0 w = x := by
  rw [BitVec.extractLsb'_setWidth_of_le (by omega), BitVec.extractLsb'_eq_self]

/-- The selection of rule R101 from a ymm source reads the register's low 256 bits alone. -/
theorem sel128_ymm_low (src : Zmm) (imm : Byte) :
    sel128 256 ((src.extractLsb' 0 256).setWidth Config.maxVL) imm = sel128 256 src imm := by
  unfold sel128
  rw [extractLsb'_setWidth_self _ (by decide)]

/-- An intrinsic selects from its vector argument as its instruction does from the whole register. -/
theorem selectBlock_low (f : Form) (src : Zmm) (imm : Byte) :
    selectBlock f (src.extractLsb' 0 (vectorLength f)) imm = selectedBlock f src imm := by
  have hwhole : src.extractLsb' 0 512 = src := BitVec.extractLsb'_eq_self
  cases f with
  | f1 | f2 | f4 => exact sel128_ymm_low src imm
  | f3 | f5 => exact congrArg (sel128 512 · imm) hwhole
  | f6 | f7 => exact congrArg (sel256 · imm) hwhole

/-- The writemask reaches every form but F1, which runs as an EVEX form without writemask does. -/
theorem exec_ofForm_ready {f : Form} (dst : Operand) (src : VReg) (imm : Byte) {wm : Writemask}
    (hf1 : f = .f1 → wm = ⟨0, false⟩) {s : State} (hready : s.Ready f) :
    exec (.ofForm f dst src imm wm) s = writeMasked f (selectedBlock f (s.getZmm src) imm) dst wm s := by
  cases f with
  | f1 =>
    rw [hf1 rfl]
    exact exec_ready (i := .vextracti128 dst src imm) hready
  | f2 | f3 | f4 | f5 | f6 | f7 => exact exec_ready (i := .ofForm _ dst src imm wm) hready

/-- WHAT exec LEAVES in the low part of a destination register: the loop of rule R104 over the selected block and the
register's old low part. -/
theorem exec_ofForm_reg_lowPart {f : Form} (d src : VReg) (imm : Byte) {wm : Writemask}
    (hf1 : f = .f1 → wm = ⟨0, false⟩) {s : State} (hready : s.Ready f) :
    ∃ t, exec (.ofForm f (.reg d) src imm wm) s = .next t ∧
      (t.getZmm d).extractLsb' 0 (extractWidth f) = blend (elementWidth f) (s.enabled wm) wm.z
        (selectedBlock f (s.getZmm src) imm) ((s.getZmm d).extractLsb' 0 _) (elementCount f) := by
  refine ⟨_, exec_ofForm_ready (.reg d) src imm hf1 hready, ?_⟩
  rw [getZmm_setPc, writeRegMasked_getZmm, extractLsb'_setWidth_self _ (extractWidth_le_maxVL f)]

/-- Settles O55: the instruction and the intrinsic run the same loop over the same block. -/
theorem intrinsicsReturnTheDestinationsLowPart : Obligations.IntrinsicsReturnTheDestinationsLowPart := by
  intro i d src k n s hk hready
  have hf1 : i.form = .f1 → i.flavour.writemask k = ⟨0, false⟩ := fun h => by rw [flavour_of_form_f1 h]; rfl
  obtain ⟨t, hexec, hlow⟩ := exec_ofForm_reg_lowPart d src n hf1 hready
  refine ⟨t, hexec, ?_⟩
  rw [hlow, intrinsicResult_eq_blend, selectBlock_low, writemask_z]
  exact blend_congr _ _ _ _ fun j hj => enabled_writemask s hk i.flavour (hj.trans_le (elementCount_le_eight i.form))

end Sys2Proof.Machine

/-! ## The form checks raise `#UD`, then `#NM` -/

namespace Sys2Proof.Machine

/-! ### What the checks ask for (rules R143, R144) -/

theorem osAllows_iff {s : State} {f : Form} : s.osAllows f = true ↔
    s.cr4.getLsbD 18 = true ∧ s.xcr0.extractLsb' 1 2 = 0b11 ∧ (f ≠ .f1 → s.xcr0.extractLsb' 5 3 = 0b111) := by
  have havx : s.osAvx = true ↔ s.cr4.getLsbD 18 = true ∧ s.xcr0.extractLsb' 1 2 = 0b11 := by
    rw [State.osAvx, Bool.and_eq_true, beq_iff_eq, and_comm, State.cr4OSXSAVE]
  cases f with
  | f1 => simp [State.osAllows, havx]
  | f2 | f3 | f4 | f5 | f6 | f7 => simp [State.osAllows, State.osAvx512, havx, and_assoc]

/-- Settles O51: the flags are those of `Features.allow`, the enables those of `State.osAllows`. -/
theorem featureOkMeansTheFormsFlagsAndEnables : Obligations.FeatureOkMeansTheFormsFlagsAndEnables := by
  intro s f
  rw [State.featureOk, Bool.and_eq_true]
  refine and_congr ?flags osAllows_iff
  cases f with
  | f1 | f3 | f5 | f6 | f7 => exact Iff.rfl
  | f2 | f4 => exact Bool.and_eq_true_iff

/-! ### What the checks answer, in the order of rule R152 -/

theorem checked_of_virtual8086 {f : Form} {s : State} (hmode : s.mode = .virtual8086) (go : Result) :
    checked f s go = .fault .ud := by
  simp only [checked, hmode, raise]

theorem checked_of_not_featureOk {f : Form} {s : State} (hmode : s.mode = .bits64) (hok : ¬s.featureOk f = true)
    (go : Result) : checked f s go = .fault .ud := by
  simp only [checked, hmode, if_neg hok, raise]

theorem checked_of_osTs {f : Form} {s : State} (hmode : s.mode = .bits64) (hok : s.featureOk f = true)
    (hts : s.osTs = true) (go : Result) : checked f s go = .fault .nm := by
  simp only [checked, hmode, if_pos hok, if_pos hts, raise]

/-- Settles O39: the checks come before the operands, and `#NM` is the last of them. -/
theorem taskSwitchedRaisesNM : Obligations.TaskSwitchedRaisesNM := by
  intro i s hmode hok hts
  obtain ⟨go, hexec⟩ := exec_eq_checked i s
  rw [hexec, checked_of_osTs hmode hok hts]

/-- Settles O38: whatever is missing is something that `feature_ok` asks for (O51), and CR0.TS is looked at only after
it. -/
theorem missingFeatureOrEnableRaisesUD : Obligations.MissingFeatureOrEnableRaisesUD := by
  intro i s
  obtain ⟨go, hexec⟩ := exec_eq_checked i s
  rw [hexec]
  refine ⟨?otherModes, ?bits64⟩
  case otherModes =>
    rintro (hreal | hvirtual)
    · exact checked_of_realAddress hreal go
    · exact checked_of_virtual8086 hvirtual go
  case bits64 =>
    intro hmode hmissing
    refine checked_of_not_featureOk hmode (fun hok => ?_) go
    obtain ⟨hflags, hosxsave, havx, havx512⟩ := (featureOkMeansTheFormsFlagsAndEnables s i.form).mp hok
    rcases hmissing with hflag | hclear | hclear | ⟨hevex, hclear⟩
    · generalize i.form = f at hflags hflag
      cases f with
      | f1 | f3 | f5 | f6 | f7 => simp [hflags] at hflag
      | f2 | f4 => simp [hflags.1, hflags.2] at hflag
    · exact absurd hosxsave (Bool.eq_false_iff.mp hclear)
    · exact hclear havx
    · exact hclear (havx512 hevex)

end Sys2Proof.Machine

/-! ## Bytes outside the text, and bytes that memory does not hold -/

namespace Sys2Proof.Machine

theorem fetchByte_outside_text {s : State} {a : Nat} (htext : s.text.holds a = false) :
    fetchByte s a = .error .outsideText := by
  rw [fetchByte, if_neg (Bool.eq_false_iff.mp htext)]

theorem fetchByte_unwritten {s : State} {a : Nat} (htext : s.text.holds a = true)
    (hadmit : s.memAdmit a 1 .fetch = true) (hmem : Memory.read s.mem a = none) :
    fetchByte s a = .error (.unwritten a) := by
  simp only [fetchByte, if_pos htext, if_pos hadmit, hmem]

/-- Settles O18: byte `k` stops the fetch before the instruction is whole. -/
theorem instructionPastTheTextIsRefused : Obligations.InstructionPastTheTextIsRefused := by
  intro s bytes k hmode hrunning hwhole hk hfetch htext
  exact step_of_fetch_stop hmode hrunning hwhole hk hfetch (fetchByte_outside_text htext)

/-- Settles O19: the fetch asks for the text and for admission before it reads memory, and both allow byte `k`. -/
theorem unwrittenProgramByteFaults : Obligations.UnwrittenProgramByteFaults := by
  intro s bytes k hmode hrunning hwhole hk hfetch htext hadmit hmem
  exact step_of_fetch_stop hmode hrunning hwhole hk hfetch (fetchByte_unwritten htext hadmit hmem)

end Sys2Proof.Machine

/-! ## The run -/

namespace Sys2Proof.Machine

/-! ### The run, by what its first step answers (rules R174 to R176) -/

theorem run_succ_of_next {s t : State} (n : Nat) (h : step s = .next t) : run (n + 1) s = run n t := by
  simp only [run, h]

theorem run_succ_of_fault {s : State} {f : Fault} (n : Nat) (h : step s = .fault f) :
    run (n + 1) s = .faulted f s := by
  simp only [run, h]

theorem run_succ_of_programEnded {s : State} (n : Nat) (h : step s = .refused .programEnded) :
    run (n + 1) s = .ended s := by
  simp only [run, h]

theorem run_succ_of_refused {s : State} {r : Refusal} (n : Nat) (h : step s = .refused r) (hr : r ≠ .programEnded) :
    run (n + 1) s = .refused r s := by
  cases r with
  | programEnded => exact absurd rfl hr
  | _ => simp only [run, h]

/-- Settles O20, by induction on the number of steps: only a step that goes on leaves the fault to the rest of the
run. -/
theorem faultedRunReportsTheStateOfTheFault : Obligations.FaultedRunReportsTheStateOfTheFault := by
  intro n
  induction n with
  | zero => intro s u f h; cases h
  | succ n ih =>
    intro s u f h
    cases hstep : step s with
    | next t =>
      rw [run_succ_of_next n hstep] at h
      obtain ⟨hfault, k, hk, hrun⟩ := ih t u f h
      exact ⟨hfault, k + 1, Nat.succ_lt_succ hk, (run_succ_of_next k hstep).trans hrun⟩
    | fault g =>
      rw [run_succ_of_fault n hstep] at h
      cases h
      exact ⟨hstep, 0, n.succ_pos, rfl⟩
    | refused r =>
      by_cases hr : r = .programEnded
      · rw [run_succ_of_programEnded n (hr ▸ hstep)] at h
        cases h
      · rw [run_succ_of_refused n hstep hr] at h
        cases h

/-! ### The end of the text (rule R176; log entry 16) -/

theorem step_of_pc_finish {s : State} (hmode : s.mode = .bits64) (hpc : s.pc = s.text.finish) :
    step s = .refused .programEnded := by
  simp [step, hmode, State.ended, hpc]

/-- With no byte to read at `pc`, the step answers the reason for which the fetch stops. -/
theorem step_of_no_byte {s : State} {e : FetchStop} (hmode : s.mode = .bits64) (hrunning : s.ended = false)
    (hstop : fetchByte s s.pc.toNat = .error e) : step s = fetchFailure (some e) := by
  have hwindow : fetchBytes s = ([], some e) :=
    fetchBytes_stop (by decide) (fun _ hq => absurd hq (Nat.not_lt_zero _)) hstop
  have hdecode : decode [] = .refused .truncated := rfl
  simp [step, hmode, hrunning, hwindow, hdecode]

/-- Settles O16: the step looks for the end before it fetches. -/
theorem runEndsOnlyAtTheEndOfTheText : Obligations.RunEndsOnlyAtTheEndOfTheText := by
  intro s hmode
  refine ⟨fun hpc => ?atEnd, fun hpc htext => ?elsewhere⟩
  case atEnd =>
    have hstep := step_of_pc_finish hmode hpc
    exact ⟨hstep, fun n => run_succ_of_programEnded n hstep⟩
  case elsewhere =>
    exact step_of_no_byte hmode (beq_eq_false_iff_ne.mpr hpc) (fetchByte_outside_text htext)

/-! ### What an instruction can refuse -/

theorem checked_refused {f : Form} {s : State} {go : Result} {r : Refusal} (h : checked f s go = .refused r) :
    r = .modeOutOfScope ∨ go = .refused r := by
  unfold checked at h
  split at h
  · cases h
  · cases h
  · injection h with h
    exact .inl h.symm
  · split at h
    · split at h
      · cases h
      · exact .inr h
    · cases h

theorem store_refused {s : State} {ea : Word} {n : Nat} {write : Memory → Memory} {next : Word} {r : Refusal}
    (h : store s ea n write next = .refused r) : r = .storeIntoText := by
  unfold store at h
  split at h
  · injection h with h
    exact h.symm
  · split at h <;> cases h

theorem writeMasked_refused {f : Form} {w : Nat} {tmp : BitVec w} {dst : Operand} {wm : Writemask} {s : State}
    {r : Refusal} (h : writeMasked f tmp dst wm s = .refused r) : r = .storeIntoText := by
  cases dst with
  | reg d => cases h
  | mem m =>
    rw [writeMasked_mem] at h
    exact store_refused h

/-- WHAT exec CAN REFUSE: a mode out of scope, or a store into the program text (rules R6, R55). -/
theorem exec_refused {i : Instr} {s : State} {r : Refusal} (h : exec i s = .refused r) :
    r = .modeOutOfScope ∨ r = .storeIntoText := by
  rw [exec_eq_writeMasked] at h
  exact (checked_refused h).imp_right writeMasked_refused

/-- Only the step ends a run, so an instruction's refusal is the run's. -/
theorem exec_refused_ne_programEnded {i : Instr} {s : State} {r : Refusal} (h : exec i s = .refused r) :
    r ≠ .programEnded := by
  rcases exec_refused h with rfl | rfl <;> decide

/-! ### A text of encoded instructions -/

/-- An instruction that completes leaves the mode alone and moves the pc behind itself (rule R111). -/
theorem exec_next_mode_pc {i : Instr} {s t : State} (h : exec i s = .next t) :
    t.mode = s.mode ∧ t.pc = s.pc + BitVec.ofNat 64 i.length := by
  obtain ⟨hframe, -, -⟩ := instructionChangesOnlyItsDestination i s t h
  rw [hframe]
  exact ⟨rfl, rfl⟩

/-- O14 from any instruction of the text on: `before` holds the bytes of those that have run. -/
theorem run_eq_runInstrs_of_offset {is : List Instr} {before : List Byte} {s : State} (hmode : s.mode = .bits64)
    (hwf : ∀ i ∈ is, i.wf = true) (htext : s.HoldsText (before ++ is.flatMap encode))
    (hlength : (before ++ is.flatMap encode).length < Config.spaceSize)
    (hpc : s.pc = s.text.base + BitVec.ofNat 64 before.length) : run (is.length + 1) s = runInstrs is s := by
  induction is generalizing before s with
  | nil =>
    rw [List.flatMap_nil, List.append_nil] at htext
    obtain ⟨hsize, -, -, -⟩ := htext
    exact run_succ_of_programEnded 0 (step_of_pc_finish hmode (by rw [hpc, ProgramText.finish, hsize]))
  | cons i is ih =>
    rw [List.flatMap_cons, ← List.append_assoc] at htext hlength
    have hstep := stepRunsTheEncodedInstructionAtPc s i before _ hmode (hwf i List.mem_cons_self) htext hlength hpc
    rw [List.length_cons, runInstrs]
    cases hexec : exec i s with
    | next t =>
      rw [hexec] at hstep
      obtain ⟨hheld, hplace⟩ := stepKeepsTheProgramText s t _ htext hstep
      obtain ⟨hmode', hpc'⟩ := exec_next_mode_pc hexec
      have hbehind : t.pc = t.text.base + BitVec.ofNat 64 (before ++ encode i).length := by
        rw [hpc', hpc, hplace, List.length_append, encode_length, BitVec.ofNat_add, BitVec.add_assoc]
      rw [run_succ_of_next _ hstep]
      exact ih (hmode'.trans hmode) (fun j hj => hwf j (List.mem_cons_of_mem i hj)) hheld hlength hbehind
    | fault f => exact run_succ_of_fault _ (hstep.trans hexec)
    | refused r => exact run_succ_of_refused _ (hstep.trans hexec) (exec_refused_ne_programEnded hexec)

/-- Settles O14: at the base, none of the text has run yet. -/
theorem runOfAProgramTextRunsItsInstructionsInOrder : Obligations.RunOfAProgramTextRunsItsInstructionsInOrder := by
  intro is s hmode hwf htext hlength hpc
  exact run_eq_runInstrs_of_offset (before := []) hmode hwf htext hlength (hpc.trans (BitVec.add_zero _).symm)

end Sys2Proof.Machine
